-- ==== Sys2Proof/Word.lean ====
section
/-! DEFINITION. The vector types of the codec: the ArincWord and the widths of the ports (00_scope.md R4,
10_state.md R15, R16). All values are unsigned (R7). -/

namespace Sys2Proof

/-- The 32-bit ArincWord (R30); `w.getLsbD 31` is the first bit in construction order (R6). -/
abbrev ArincWord := BitVec 32

/-- The first 31 bits in construction order, `word[31:1]`, which the parity covers (R56). -/
abbrev Body := BitVec 31

/-- `enc_label`, `dec_label`: ENC_LABEL_PW = 16. -/
abbrev LabelPort := BitVec 16

/-- `enc_data`, `dec_data`: ENC_DATA_PW = 32. -/
abbrev DataPort := BitVec 32

/-- `enc_ssm`, `dec_ssm`: ENC_SSM_PW = 8. -/
abbrev SsmPort := BitVec 8

/-- `enc_sdi`, `dec_sdi`: ENC_SDI_PW = 8. -/
abbrev SdiPort := BitVec 8

/-- `enc_err`: bit 0 label, bit 1 data, bit 2 ssm, bit 3 sdi (R102). -/
abbrev EncErr := BitVec 4

end Sys2Proof
end

