-- ==== Sys2Proof/Syntax.lean ====
section
/-! DEFINITION. The operations, the requests they are written as, and the notation for the host's programs
(30_encoding.md R33 to R36, R41, R45 to R47). -/

namespace Sys2Proof

/-- The two units (R1). Driving a unit's ports is what selects its operation (R36). -/
inductive CodecUnit where
  | enc
  | dec
  deriving DecidableEq, Repr

/-- The field an InvalidArgument names (10_state.md R17). -/
inductive ErrField where
  | label
  | data
  | ssm
  | sdi
  /-- Only a word outside 32 bits, which no port can carry (60_exceptions.md R104). -/
  | word
  deriving DecidableEq, Repr

/-- The two operations with their operands: `Op` of R36. -/
inductive Instr where
  /-- ENCODE label, data, ssm, sdi (R33, R50). -/
  | encode (label : LabelPort) (data : DataPort) (ssm : SsmPort) (sdi : SdiPort)
  /-- DECODE word (R34, R70). -/
  | decode (word : ArincWord)
  deriving DecidableEq, Repr

/-- The unit that performs an operation (R41). -/
def Instr.unit : Instr → CodecUnit
  | .encode _ _ _ _ => .enc
  | .decode _ => .dec

/-- A request as it is written down: the unit the host drives and the flat operand vector ENC_REQ or DEC_REQ as a
number (R33, R34, R36). -/
structure Request where
  unit : CodecUnit
  bits : Nat
  deriving DecidableEq, Repr

/-- A host variable of a program (R47), numbered. -/
abbrev Var := Nat

/-- What a program may take of a bound result (R47). -/
inductive Proj where
  | word
  | label
  | data
  | ssm
  | sdi
  | parity
  | parityValid
  deriving DecidableEq, Repr

/-- An operand of an operation: a numeral or a host variable, whole or a component of what it is bound to (R45, R47). No
operation takes an expression. -/
inductive Operand where
  | num (n : Nat)
  | var (v : Var)
  | proj (v : Var) (p : Proj)
  deriving DecidableEq, Repr

/-- The expression of a host step: the same atoms, and `^` over them, which only a host step may use (R47). -/
inductive HostExpr where
  | atom (o : Operand)
  | xor (a b : HostExpr)
  deriving DecidableEq, Repr

/-- A line of a program (R47). An omitted `ssm` or `sdi` is `none` (R45). -/
inductive Line where
  /-- `v = ENCODE label, data [, ssm [, sdi]]` -/
  | encode (v : Var) (label data : Operand) (ssm sdi : Option Operand)
  /-- `v = DECODE word` -/
  | decode (v : Var) (word : Operand)
  /-- `v = <expression>`, a host step and no part of the hardware -/
  | host (v : Var) (e : HostExpr)
  deriving DecidableEq, Repr

/-- A program is a finite list of lines, performed top to bottom (R47). -/
abbrev Program := List Line

end Sys2Proof
end

