-- ==== Sys2Proof/WellFormed.lean ====
section
/-! DEFINITION. What makes a written term well formed. Every `Instr` is one by its types: every request on either unit
is an operation (60_exceptions.md R103). The checks below are about what is WRITTEN: a request's number must fit
its format (30_encoding.md R33, R34), a numeral must fit its port and `sdi` needs `ssm` (R45), and a program's
lines may use only what earlier lines bound, of the kind R47 allows. -/

namespace Sys2Proof

/-- The number fits the format of the unit it is for: ENC_REQ has 64 bits, DEC_REQ 32 (R33, R34). -/
def Request.wf (r : Request) : Bool :=
  match r.unit with
  | .enc => decide (r.bits < 2 ^ 64)
  | .dec => decide (r.bits < 2 ^ 32)

/-- A numeral fits the `w` bits it is used at (R45); a value known only in the run is checked there. -/
def Operand.fits (w : Nat) : Operand → Bool
  | .num n => decide (n < 2 ^ w)
  | .var _ => true
  | .proj _ _ => true

/-- Every numeral of a host step is a 32-bit value (R47). -/
def HostExpr.numeralsFit : HostExpr → Bool
  | .atom o => o.fits 32
  | .xor a b => a.numeralsFit && b.numeralsFit

/-- An operand of a port of `w` bits: it fits there, or it is omitted (R45). -/
def operandFits (w : Nat) : Option Operand → Bool
  | none => true
  | some o => o.fits w

/-- A line as R45 and R47 allow it to be written, taken by itself. -/
def Line.wf : Line → Bool
  | .encode _ label data ssm sdi =>
    operandFits 16 (some label) && operandFits 32 (some data) && operandFits 8 ssm && operandFits 8 sdi
      && (sdi.isNone || ssm.isSome)
  | .decode _ word => operandFits 32 (some word)
  | .host _ e => e.numeralsFit

/-- What a host variable may hold. -/
inductive Kind where
  | encResult
  | decResult
  /-- a 32-bit value -/
  | number
  /-- the Boolean `parity_valid` -/
  | truth
  deriving DecidableEq, Repr

/-- The kind of the variables bound so far, newest first. -/
abbrev Scope := List (Var × Kind)

/-- The newest binding of a variable. -/
def Scope.find : Scope → Var → Option Kind
  | [], _ => none
  | (u, k) :: rest, v => if u = v then some k else Scope.find rest v

/-- The kind a projection yields: `.word` only of an ENCODE result, the others only of a DECODE result (R17, R47). -/
def Proj.kind : Kind → Proj → Option Kind
  | .encResult, .word => some .number
  | .encResult, _ => none
  | .decResult, .word => none
  | .decResult, .parityValid => some .truth
  | .decResult, _ => some .number
  | .number, _ => none
  | .truth, _ => none

/-- The kind of an operand, `none` where its variable is unbound or of a wrong kind. -/
def Operand.kind (g : Scope) : Operand → Option Kind
  | .num _ => some .number
  | .var v => if g.find v = some .number then some .number else none
  | .proj v p => (g.find v).bind fun k => p.kind k

/-- The kind of a host step's expression. -/
def HostExpr.kind (g : Scope) : HostExpr → Option Kind
  | .atom o => o.kind g
  | .xor a b => if a.kind g = some .number ∧ b.kind g = some .number then some .number else none

/-- An operand is omitted or a 32-bit value. -/
def operandKinded (g : Scope) : Option Operand → Bool
  | none => true
  | some o => o.kind g = some .number

/-- The scope after a line, `none` where the line uses what is not there. -/
def Line.bindKind (g : Scope) : Line → Option Scope
  | .encode v label data ssm sdi =>
    if operandKinded g (some label) && operandKinded g (some data) && operandKinded g ssm && operandKinded g sdi
    then some ((v, .encResult) :: g) else none
  | .decode v word => if operandKinded g (some word) then some ((v, .decResult) :: g) else none
  | .host v e => (e.kind g).map fun k => (v, k) :: g

/-- Every line is well formed and uses only what earlier lines bound. Taking `.word` of an InvalidArgument is ill
formed too (R47), but whether it happens depends on the values: `HostError.noWord` of Machine/Program.lean. -/
def Program.wfFrom (g : Scope) : Program → Bool
  | [] => true
  | l :: rest =>
    l.wf && match l.bindKind g with
      | some g' => Program.wfFrom g' rest
      | none => false

/-- A program starts with no host variable bound (95_test_vectors.md section 3). -/
def Program.wf (p : Program) : Bool := Program.wfFrom [] p

end Sys2Proof
end

