-- ==== Sys2Proof/Decode.lean ====
section
/-! DEFINITION. Reading a request as an operation, and writing an operation as a request (30_encoding.md R33 to R36). The
hardware has no opcode field and no binary decoder: the unit that is driven selects the operation, and every bit
of its format is an operand bit. There is no byte order (20_memory.md R22): a request is one number, bit 0 least
significant. -/

namespace Sys2Proof

/-- Why a written request is no operation. -/
inductive DecodeError where
  /-- A DECODE operand of 2^32 or more: InvalidArgument(WORD), never truncated (60_exceptions.md R104). -/
  | wordOutOfRange
  /-- An ENC_REQ number of 2^64 or more: some numeral does not fit its port and cannot be written (R45). -/
  | requestTooWide
  deriving DecidableEq, Repr

/-- The operation a request stands for. ENC_REQ is `{enc_label, enc_data, enc_ssm, enc_sdi}`, most significant first. -/
def decodeRequest (r : Request) : Except DecodeError Instr :=
  match r.unit with
  | .enc =>
    if r.bits < 2 ^ 64 then
      let v := BitVec.ofNat 64 r.bits
      .ok (.encode (v.extractLsb' 48 16) (v.extractLsb' 16 32) (v.extractLsb' 8 8) (v.extractLsb' 0 8))
    else .error .requestTooWide
  | .dec => if r.bits < 2 ^ 32 then .ok (.decode (BitVec.ofNat 32 r.bits)) else .error .wordOutOfRange

/-- The ENC_REQ vector of four operands (R33). -/
def encReq (label : LabelPort) (data : DataPort) (ssm : SsmPort) (sdi : SdiPort) : BitVec 64 :=
  label ++ data ++ ssm ++ sdi

/-- The request an operation is written as. -/
def encodeInstr : Instr → Request
  | .encode label data ssm sdi => ⟨.enc, (encReq label data ssm sdi).toNat⟩
  | .decode word => ⟨.dec, word.toNat⟩

/-- The request that a row of the opcode table with `nbits` bits of value `w` stands for. The two rows differ in
nothing but their format's width (R36, D11), so the width names the unit: up to 32 bits DEC_REQ, up to 64 bits
ENC_REQ, bits above `nbits` zero, and a longer row is none. DESIGN CHOICE (log entry 7), safe. -/
def requestOfTableWord (nbits w : Nat) : Option Request :=
  if nbits ≤ 32 then some ⟨.dec, w⟩ else if nbits ≤ 64 then some ⟨.enc, w⟩ else none

/-- The operation the decoder reads from a row of the opcode table, `none` where it refuses. -/
def decodeTableWord (nbits w : Nat) : Option Instr :=
  match requestOfTableWord nbits w with
  | none => none
  | some r =>
    match decodeRequest r with
    | .ok i => some i
    | .error _ => none

end Sys2Proof
end

