-- ==== Sys2Proof/Config.lean ====
section
/-! DEFINITION. The parameters fixed when the hardware is built (00_scope.md R4, R5). There is no free value: once
LABEL_MAX is fixed both operations are total and deterministic (42_codec_laws.md R96). -/

namespace Sys2Proof

/-- The two legal choices of LABEL_MAX (R5). -/
inductive LabelMax where
  /-- 255: the field's own range. -/
  | narrow
  /-- 2047 (octal 3777): labels above 255 are accepted and silently truncated (R54). Not this hardware. -/
  | wide
  deriving DecidableEq, Repr

/-- The largest legal `label` operand. -/
def LabelMax.value : LabelMax → Nat
  | .narrow => 255
  | .wide => 2047

/-- DATA_MAX, the largest legal `data` operand (R4). -/
abbrev Config.dataMax : Nat := 524287

/-- SSM_MAX (R4). -/
abbrev Config.ssmMax : Nat := 3

/-- SDI_MAX (R4). -/
abbrev Config.sdiMax : Nat := 3

/-- This hardware takes LABEL_MAX = 255 (R5, decision D1). -/
def Config.labelMax : LabelMax := .narrow

end Sys2Proof
end

