-- ==== Sys2Proof/Machine/State.lean ====
section
/-! DEFINITION. The state of the model: the values on the ports of ENC and DEC (10_state.md R15, R16) and the requests
the host has still to make (30_encoding.md R47). The hardware itself stores nothing (10_state.md R10 to R14, R19): the
port values are wires, not registers, and no operation reads them (log entries 1 and 2). -/

namespace Sys2Proof.Machine

/-- The values on ENC's input ports (R15). -/
structure EncIn where
  label : LabelPort
  data : DataPort
  ssm : SsmPort
  sdi : SdiPort
  deriving DecidableEq, Repr

/-- The values on ENC's output ports (R15). -/
structure EncOut where
  word : ArincWord
  err : EncErr
  deriving DecidableEq, Repr

/-- The values on DEC's output ports (R16). -/
structure DecOut where
  label : LabelPort
  data : DataPort
  ssm : SsmPort
  sdi : SdiPort
  parity : BitVec 8
  parityValid : BitVec 1
  deriving DecidableEq, Repr

/-- The result of ENCODE as a value (R17): the error case carries no word. -/
inductive EncResult where
  | ok (word : ArincWord)
  | invalidArgument (field : ErrField)
  deriving DecidableEq, Repr

/-- The result of DECODE as a value (R17). -/
structure DecodedWord where
  label : LabelPort
  data : DataPort
  ssm : SsmPort
  sdi : SdiPort
  parity : BitVec 8
  parityValid : Bool
  deriving DecidableEq, Repr

/-- What the model's machine holds between two operations. -/
structure State where
  /-- ENC's input ports, as the host last drove them. -/
  encIn : EncIn
  /-- ENC's output ports. -/
  encOut : EncOut
  /-- `dec_word`, as the host last drove it. -/
  decIn : ArincWord
  /-- DEC's output ports. -/
  decOut : DecOut
  /-- The host's requests not made yet, next one first (R47; log entry 2). -/
  pending : List Request
  deriving DecidableEq, Repr

/-- Why a step stops with a fault. No operation of the hardware raises one: InvalidArgument from ENCODE is a result on
its ports and the machine goes on (60_exceptions.md R100, R110). -/
inductive Fault where
  /-- Raised by the fetch for a DECODE request of 2^32 or more: InvalidArgument(WORD), which no 32-bit port can meet
  and a wider type must not truncate (60_exceptions.md R104). Safe: no operation is performed. -/
  | invalidArgumentWord
  deriving DecidableEq, Repr

/-- Why a step refuses. -/
inductive Refusal where
  /-- An operation with no meaning yet. No arm of exec answers so. Safe. -/
  | notModelled (mnemonic : String)
  /-- Raised by the fetch when the host has no request left: the run has ended (30_encoding.md R47). Safe (log
  entry 8). -/
  | endOfRun
  /-- Raised by the fetch for an ENC_REQ number of 2^64 or more, which is not an operation (30_encoding.md R45). Safe
  (log entry 11). -/
  | requestTooWide
  deriving DecidableEq, Repr

/-- The machine before the first operation. There is no reset and no reset value (10_state.md R19, 70_reset_and_hazards.md R120); the
outputs are what R18 gives for the present inputs (40_encoder.md R61 first row, 41_decoder.md R80 first row), and
zero on every input is a DESIGN CHOICE, unsafe (log entry 3). Nothing is pending (log entry 2). -/
def State.reset : State where
  encIn := ⟨0, 0, 0, 0⟩
  encOut := ⟨0x00000001, 0⟩
  decIn := 0
  decOut := ⟨0, 0, 0, 0, 0, 0⟩
  pending := []

end Sys2Proof.Machine
end

