-- ==== Sys2Proof/Machine/Ops.lean ====
section
/-! DEFINITION. The shared operations: the primitives of 00_scope.md R7 and the operations over the ports. Placing operands
on a unit's input ports and taking the result from its output ports is all the data an operation moves
(20_memory.md R20). -/

namespace Sys2Proof.Machine

/-- `rev8(v)`: bit k of the result is bit 7 - k of `v` (R7). -/
def rev8 (v : BitVec 8) : BitVec 8 := BitVec.ofFnLE fun k : Fin 8 => v.getLsbD (7 - k)

/-- The number of ones among the `n` lowest bits. -/
def onesBelow {w : Nat} (v : BitVec w) : Nat → Nat
  | 0 => 0
  | n + 1 => onesBelow v n + (v.getLsbD n).toNat

/-- `popcount(v)` (R7). -/
def popcount {w : Nat} (v : BitVec w) : Nat := onesBelow v w

/-- The exclusive or of the `n` lowest bits. -/
def xorBelow {w : Nat} (v : BitVec w) : Nat → Bool
  | 0 => false
  | n + 1 => xorBelow v n ^^ v.getLsbD n

/-- `xorr(v)` (R7). -/
def xorr {w : Nat} (v : BitVec w) : Bool := xorBelow v w

/-- The operation of ENC with operands `inp` ends normally with the word `w`: `enc_err = 0b0000`, `enc_word = w`
(10_state.md R17). Only ENC's ports change (40_encoder.md R60). -/
def State.returnWord (s : State) (inp : EncIn) (w : ArincWord) : State :=
  { s with encIn := inp, encOut := ⟨w, 0⟩ }

/-- `raise InvalidArgument`, the hardware's one exception (60_exceptions.md R100, R102, R108, R109): every offending operand is
flagged in `enc_err`, `enc_word` is 0x00000000, nothing is saved and control goes nowhere. There is no return from
it (R110). -/
def State.raiseInvalidArgument (s : State) (inp : EncIn) (err : EncErr) : State :=
  { s with encIn := inp, encOut := ⟨0x00000000, err⟩ }

/-- The operation of DEC with operand `w` ends with the values `out` on its output ports (41_decoder.md R70). Only DEC's
ports change (R79). -/
def State.returnFields (s : State) (w : ArincWord) (out : DecOut) : State :=
  { s with decIn := w, decOut := out }

/-- The host makes request `r` next (60_exceptions.md R116). -/
def State.present (s : State) (r : Request) : State := { s with pending := r :: s.pending }

/-- The next operation and the machine with its request taken off the host's list, or why there is none: the list has
ended (30_encoding.md R47), or what is written is no operation (R45, 60_exceptions.md R104). -/
def fetch (s : State) : Host.Outcome (Instr × State) Fault Refusal :=
  match s.pending with
  | [] => .refused .endOfRun
  | r :: rest =>
    match decodeRequest r with
    | .ok i => .next (i, { s with pending := rest })
    | .error .wordOutOfRange => .fault .invalidArgumentWord
    | .error .requestTooWide => .refused .requestTooWide

end Sys2Proof.Machine
end

