-- ==== Sys2Proof/Machine/Operands.lean ====
section
/-! DEFINITION. The operand forms: the range checks of ENCODE's operands (30_encoding.md R42, 40_encoder.md R51 to R53), the
assembly of fields from operands (R37, R38), and the slices of a word (R30, R31, R40). -/

namespace Sys2Proof.Machine

/-- `bad_label = uint(label) > LABEL_MAX` (R52). The whole port is compared. -/
def badLabel (m : LabelMax) (label : LabelPort) : Bool := decide (label.toNat > m.value)

/-- `bad_data = uint(data) > 524287` (R53). -/
def badData (data : DataPort) : Bool := decide (data.toNat > Config.dataMax)

/-- `bad_ssm = uint(ssm) > 3` (R53). -/
def badSsm (ssm : SsmPort) : Bool := decide (ssm.toNat > Config.ssmMax)

/-- `bad_sdi = uint(sdi) > 3` (R53). -/
def badSdi (sdi : SdiPort) : Bool := decide (sdi.toNat > Config.sdiMax)

/-- The allowed range an InvalidArgument reports through its field (60_exceptions.md R101). -/
def allowedRange (m : LabelMax) : ErrField → Nat × Nat
  | .label => (0, m.value)
  | .data => (0, Config.dataMax)
  | .ssm => (0, Config.ssmMax)
  | .sdi => (0, Config.sdiMax)
  | .word => (0, 2 ^ 32 - 1)

/-- `label_bin = label[7:0]` (R55). -/
def labelBin (label : LabelPort) : BitVec 8 := label.extractLsb' 0 8

/-- `label_rev = rev8(label[7:0])` (R37, R55). -/
def labelRev (label : LabelPort) : BitVec 8 := rev8 (labelBin label)

/-- `body = {label_rev, data[18:0], ssm[1:0], sdi[1:0]}` (R56). -/
def bodyOf (inp : EncIn) : Body :=
  labelRev inp.label ++ inp.data.extractLsb' 0 19 ++ inp.ssm.extractLsb' 0 2 ++ inp.sdi.extractLsb' 0 2

/-- `word[31:24]`, the label as it stands in the word (R72). -/
def wordLabelRev (w : ArincWord) : BitVec 8 := w.extractLsb' 24 8

/-- `word[23:5]` (R73). -/
def wordData (w : ArincWord) : BitVec 19 := w.extractLsb' 5 19

/-- `word[4:3]` (R74). -/
def wordSsm (w : ArincWord) : BitVec 2 := w.extractLsb' 3 2

/-- `word[2:1]` (R75). -/
def wordSdi (w : ArincWord) : BitVec 2 := w.extractLsb' 1 2

/-- `word[0]` (R76). -/
def wordParity (w : ArincWord) : BitVec 1 := w.extractLsb' 0 1

/-- `word[31:1]`, the bits the parity covers (R77). -/
def wordBody (w : ArincWord) : Body := w.extractLsb' 1 31

end Sys2Proof.Machine
end

