-- ==== Sys2Proof/Machine/Flags.lean ====
section
/-! DEFINITION. The computed bits. The hardware has no flags (10_state.md R12); what looks like one is a result of the one operation
that computes it: the parity bit (40_encoder.md R57, 41_decoder.md R77), `parity_valid` (R78) and the error indication (60_exceptions.md R102,
R107). -/

namespace Sys2Proof.Machine

/-- The odd-parity bit of a body: 1 when its count of ones is even, 0 when it is odd (R57). The same rule gives DECODE's
`expected` (R77). -/
def parityBit (body : Body) : BitVec 1 := if popcount body % 2 = 0 then 1 else 0

/-- `parity_valid = (word[0] == expected)` (R78). -/
def parityValid (w : ArincWord) : Bool := wordParity w == parityBit (wordBody w)

/-- `err = {bad_sdi, bad_ssm, bad_data, bad_label}`: every offending operand is flagged (R102). -/
def errMask (m : LabelMax) (inp : EncIn) : EncErr :=
  BitVec.ofBool (badSdi inp.sdi) ++ BitVec.ofBool (badSsm inp.ssm) ++ BitVec.ofBool (badData inp.data)
    ++ BitVec.ofBool (badLabel m inp.label)

/-- The field an InvalidArgument names: the operand of the lowest-numbered set bit of `enc_err`; none when it is
`0b0000`, which means Ok (R102, R107). -/
def offender (err : EncErr) : Option ErrField :=
  if err.getLsbD 0 then some .label
  else if err.getLsbD 1 then some .data
  else if err.getLsbD 2 then some .ssm
  else if err.getLsbD 3 then some .sdi
  else none

/-- The numeric code of a field (R101). -/
def ErrField.code : ErrField → Nat
  | .label => 1
  | .data => 2
  | .ssm => 3
  | .sdi => 4
  | .word => 5

/-- Code 0 means no error (R101). -/
def EncResult.code : EncResult → Nat
  | .ok _ => 0
  | .invalidArgument f => ErrField.code f

/-- The value that ENC's output ports carry (R17): `enc_word` has no meaning when `enc_err` is not zero. -/
def EncOut.result (out : EncOut) : EncResult :=
  match offender out.err with
  | none => .ok out.word
  | some f => .invalidArgument f

/-- The value that DEC's output ports carry (R17). -/
def DecOut.result (out : DecOut) : DecodedWord :=
  ⟨out.label, out.data, out.ssm, out.sdi, out.parity, out.parityValid == 1⟩

/-- The word of a result; an InvalidArgument has none (R17, 30_encoding.md R47). -/
def EncResult.word? : EncResult → Option ArincWord
  | .ok w => some w
  | .invalidArgument _ => none

end Sys2Proof.Machine
end

