-- ==== Sys2Proof/Machine/Decoder.lean ====
section
/-! DEFINITION. Unit DEC: the operation DECODE (41_decoder.md R70 to R81). -/

namespace Sys2Proof.Machine

/-- DECODE as a function of its operand (R70). Total: no word is refused (R79). -/
def decodeOp (w : ArincWord) : DecodedWord where
  label := (rev8 (wordLabelRev w)).setWidth 16
  data := (wordData w).setWidth 32
  ssm := (wordSsm w).setWidth 8
  sdi := (wordSdi w).setWidth 8
  parity := (wordParity w).setWidth 8
  parityValid := parityValid w

/-- The values R70 gives for DEC's output ports (10_state.md R16, R18). -/
def decPorts (w : ArincWord) : DecOut :=
  let d := decodeOp w
  ⟨d.label, d.data, d.ssm, d.sdi, d.parity, BitVec.ofBool d.parityValid⟩

/-- The named intermediate values of DECODE, in the order of R79. -/
structure DecTrace where
  labelRev : BitVec 8
  ones : Nat
  expected : BitVec 1
  deriving DecidableEq, Repr

/-- The optional trace (R79, 60_exceptions.md R115). No result depends on it. -/
def decTrace (w : ArincWord) : DecTrace :=
  ⟨wordLabelRev w, popcount (wordBody w), parityBit (wordBody w)⟩

/-- DECODE on the machine: the host drives `dec_word` and the outputs are those of R70. -/
def execDecode (word : ArincWord) (s : State) : Host.Outcome State Fault Refusal :=
  .next (s.returnFields word (decPorts word))

end Sys2Proof.Machine
end

