-- ==== Sys2Proof/Machine/Encoder.lean ====
section
/-! DEFINITION. Unit ENC: the operation ENCODE (40_encoder.md R50 to R62). -/

namespace Sys2Proof.Machine

/-- Steps 1 to 5 of R50: `word = {body, parity}` (R58). Meant for legal operands; for others it is what R54 calls
truncation. -/
def encodeWord (inp : EncIn) : ArincWord := bodyOf inp ++ parityBit (bodyOf inp)

/-- ENCODE as a function of its operands and LABEL_MAX (R50): validation first, then construction. -/
def encodeOp (m : LabelMax) (inp : EncIn) : EncResult :=
  match offender (errMask m inp) with
  | some f => .invalidArgument f
  | none => .ok (encodeWord inp)

/-- The values R50 gives for ENC's output ports (10_state.md R18, 60_exceptions.md R109). -/
def encPorts (m : LabelMax) (inp : EncIn) : EncOut :=
  match encodeOp m inp with
  | .ok w => ⟨w, errMask m inp⟩
  | .invalidArgument _ => ⟨0x00000000, errMask m inp⟩

/-- The named intermediate values of ENCODE, in the order of R60. -/
structure EncTrace where
  labelBin : BitVec 8
  labelRev : BitVec 8
  body : Body
  ones : Nat
  parity : BitVec 1
  deriving DecidableEq, Repr

/-- The optional trace (R60, 60_exceptions.md R115). No construction step is performed when an operand is out of range (R106), so
there is none then. No result depends on it. -/
def encTrace (m : LabelMax) (inp : EncIn) : Option EncTrace :=
  match offender (errMask m inp) with
  | some _ => none
  | none =>
    some ⟨labelBin inp.label, labelRev inp.label, bodyOf inp, popcount (bodyOf inp), parityBit (bodyOf inp)⟩

/-- ENCODE on the machine: the host drives ENC's input ports and the outputs are those of R50. -/
def execEncode (label : LabelPort) (data : DataPort) (ssm : SsmPort) (sdi : SdiPort) (s : State) :
    Host.Outcome State Fault Refusal :=
  let inp : EncIn := ⟨label, data, ssm, sdi⟩
  match encodeOp Config.labelMax inp with
  | .ok w => .next (s.returnWord inp w)
  | .invalidArgument _ => .next (s.raiseInvalidArgument inp (errMask Config.labelMax inp))

end Sys2Proof.Machine
end

