-- ==== Sys2Proof/Machine/Dispatch.lean ====
section
/-! DEFINITION. One arm per operation (30_encoding.md R41). -/

namespace Sys2Proof.Machine

def exec (i : Instr) (s : State) : Host.Outcome State Fault Refusal :=
  match i with
  | .encode label data ssm sdi => Sys2Proof.Machine.execEncode label data ssm sdi s
  | .decode word => Sys2Proof.Machine.execDecode word s

end Sys2Proof.Machine
end

