-- ==== Sys2Proof/Machine/Step.lean ====
section
/-! DEFINITION. One step: the next request of the host's list is performed as a single atomic operation
(70_reset_and_hazards.md R124). -/

namespace Sys2Proof.Machine

/-- Take the next operation and perform it. -/
def step (s : State) : Host.Outcome State Fault Refusal :=
  match fetch s with
  | .next (i, t) => exec i t
  | .fault f => .fault f
  | .refused r => .refused r

/-- The machine about to make the request that an opcode-table row stands for; a row no format holds leaves nothing to
make. A program comes from outside the machine (log entries 2 and 7). -/
def State.withFetchWord (s : State) (nbits w : Nat) : State :=
  match requestOfTableWord nbits w with
  | some r => s.present r
  | none => { s with pending := [] }

end Sys2Proof.Machine
end

