-- ==== Sys2Proof/Machine/Program.lean ====
section
/-! DEFINITION. The host's programs (30_encoding.md R45 to R47): lines performed top to bottom, each operation through the
machine's own step. Host steps are no part of the hardware. Conventions R47 leaves open are log entry 9. -/

namespace Sys2Proof.Machine

/-- What a host variable is bound to. -/
inductive HostValue where
  | enc (r : EncResult)
  | dec (d : DecodedWord)
  /-- a 32-bit value; a narrower field is zero-extended -/
  | num (v : BitVec 32)
  | truth (b : Bool)
  deriving DecidableEq, Repr

/-- Why a line cannot be performed. -/
inductive HostError where
  /-- a variable no earlier line bound -/
  | unbound (v : Var)
  /-- `.word` of an InvalidArgument result, which has none: the program is ill formed (R47) -/
  | noWord (v : Var)
  /-- a projection or operand of the wrong kind -/
  | wrongKind
  /-- a value that does not fit the port or the 32 bits it is used at (R45) -/
  | doesNotFit
  /-- `sdi` given without `ssm` (R45) -/
  | sdiWithoutSsm
  /-- the machine stopped; no operation does -/
  | machineStopped
  deriving DecidableEq, Repr

/-- The host's bindings, newest first. -/
abbrev Env := List (Var × HostValue)

/-- The newest binding of a variable. -/
def Env.find : Env → Var → Except HostError HostValue
  | [], v => .error (.unbound v)
  | (u, x) :: rest, v => if u = v then .ok x else Env.find rest v

/-- A component of a bound result (R17, R47). -/
def HostValue.project (v : Var) : HostValue → Proj → Except HostError HostValue
  | .enc (.ok w), .word => .ok (.num w)
  | .enc (.invalidArgument _), .word => .error (.noWord v)
  | .dec d, .label => .ok (.num (d.label.setWidth 32))
  | .dec d, .data => .ok (.num d.data)
  | .dec d, .ssm => .ok (.num (d.ssm.setWidth 32))
  | .dec d, .sdi => .ok (.num (d.sdi.setWidth 32))
  | .dec d, .parity => .ok (.num (d.parity.setWidth 32))
  | .dec d, .parityValid => .ok (.truth d.parityValid)
  | _, _ => .error .wrongKind

/-- The value as a 32-bit number. -/
def HostValue.asNum : HostValue → Except HostError (BitVec 32)
  | .num v => .ok v
  | _ => .error .wrongKind

/-- What an operand stands for: a numeral, a variable a host step bound, or a component of a result (R45, R47). -/
def operandValue (env : Env) : Operand → Except HostError HostValue
  | .num n => if n < 2 ^ 32 then .ok (.num (BitVec.ofNat 32 n)) else .error .doesNotFit
  | .var v => do
    let x ← (← env.find v).asNum
    return .num x
  | .proj v p => do (← env.find v).project v p

/-- The value of a host step's expression; `^` is exclusive or on 32-bit values (R47). -/
def evalExpr (env : Env) : HostExpr → Except HostError HostValue
  | .atom o => operandValue env o
  | .xor a b => do
    let x ← (← evalExpr env a).asNum
    let y ← (← evalExpr env b).asNum
    return .num (x ^^^ y)

/-- An operand for a port of `w` bits: it must fit (R45), and an omitted one is 0. -/
def evalOperand (env : Env) (w : Nat) : Option Operand → Except HostError (BitVec w)
  | none => .ok 0
  | some o => do
    let x ← (← operandValue env o).asNum
    if x.toNat < 2 ^ w then return x.setWidth w else .error .doesNotFit

/-- The host and the hardware it drives. -/
structure HostState where
  machine : State
  env : Env
  deriving DecidableEq, Repr

/-- Make one request and take the machine after the step that performs it. -/
def perform (s : State) (i : Instr) : Except HostError State :=
  match step (s.present (encodeInstr i)) with
  | .next t => .ok t
  | .fault _ => .error .machineStopped
  | .refused _ => .error .machineStopped

/-- One line: an operation binds its whole result to the variable (R47). -/
def runLine (h : HostState) : Line → Except HostError HostState
  | .encode v label data ssm sdi => do
    if sdi.isSome && ssm.isNone then .error .sdiWithoutSsm
    let l ← evalOperand h.env 16 (some label)
    let d ← evalOperand h.env 32 (some data)
    let m ← evalOperand h.env 8 ssm
    let i ← evalOperand h.env 8 sdi
    let t ← perform h.machine (.encode l d m i)
    return ⟨t, (v, .enc t.encOut.result) :: h.env⟩
  | .decode v word => do
    let w ← evalOperand h.env 32 (some word)
    let t ← perform h.machine (.decode w)
    return ⟨t, (v, .dec t.decOut.result) :: h.env⟩
  | .host v e => do
    let x ← evalExpr h.env e
    return ⟨h.machine, (v, x) :: h.env⟩

/-- A program's run ends after its last line; its end state is the binding of every variable (R47). -/
def runProgram (h : HostState) : Program → Except HostError HostState
  | [] => .ok h
  | l :: rest => do runProgram (← runLine h l) rest

end Sys2Proof.Machine
end

