-- ==== Sys2Proof/Machine/SourceForm.lean ====
section
/-! DEFINITION. The source's own algorithms, as strings of binary digits over unbounded integers (00_scope.md R8, 41_decoder.md R71,
90_conflicts.md C5). `true` is the digit 1; a string is written most significant digit first. The bit vector form of
Encoder.lean and Decoder.lean is the rule; where the two could be read differently this form decides (R8). -/

namespace Sys2Proof.Machine

/-- Render `v` as `n` binary digits, most significant first, zero-padded. -/
def render : Nat → Nat → List Bool
  | 0, _ => []
  | n + 1, v => v.testBit n :: render n v

/-- Read a string of digits as an unsigned integer, its first digit of greatest weight. -/
def parse (digits : List Bool) : Nat := digits.foldl (fun acc d => 2 * acc + d.toNat) 0

/-- The characters at string positions `a` to `a + n - 1`. -/
def slice (digits : List Bool) (a n : Nat) : List Bool := (digits.drop a).take n

/-- The count of digits 1. -/
def onesIn (digits : List Bool) : Nat := digits.countP id

/-- An integer operand lies in [0, max]. A signed or unbounded operand type makes the lower bound a real check (C5). -/
def inRange (v : Int) (max : Nat) : Bool := decide (0 ≤ v ∧ v ≤ (max : Int))

/-- The parity digit of a 31-digit string: 1 if its count of ones is even (R57). -/
def parityDigit (digits : List Bool) : Bool := onesIn digits % 2 == 0

/-- ENCODE as the source writes it. The order in which several offending operands are checked is R107's, by decision D4
(log entry 13). -/
def sourceEncode (m : LabelMax) (label data ssm sdi : Int) : Except ErrField Nat :=
  if !inRange label m.value then .error .label
  else if !inRange data Config.dataMax then .error .data
  else if !inRange ssm Config.ssmMax then .error .ssm
  else if !inRange sdi Config.sdiMax then .error .sdi
  else
    let body := (render 8 label.toNat).reverse ++ render 19 data.toNat ++ render 2 ssm.toNat ++ render 2 sdi.toNat
    .ok (parse (body ++ [parityDigit body]))

/-- DECODE as the source writes it, with the error of a platform whose type holds more than 32 bits (R104). -/
def sourceDecode (word : Int) : Except ErrField DecodedWord :=
  if !inRange word (2 ^ 32 - 1) then .error .word
  else
    let digits := render 32 word.toNat
    let parity := slice digits 31 1
    .ok
      { label := BitVec.ofNat 16 (parse (slice digits 0 8).reverse)
        data := BitVec.ofNat 32 (parse (slice digits 8 19))
        ssm := BitVec.ofNat 8 (parse (slice digits 27 2))
        sdi := BitVec.ofNat 8 (parse (slice digits 29 2))
        parity := BitVec.ofNat 8 (parse parity)
        parityValid := parity == [parityDigit (slice digits 0 31)] }

end Sys2Proof.Machine
end

