-- ==== Sys2Proof/Safety.lean ====
section
/-! DEFINITION. The terms that claims are stated in: legal requests (30_encoding.md R42), valid words (42_codec_laws.md R92), the outputs a
combinational unit must show (10_state.md R18), and runs of operations. -/

namespace Sys2Proof.Machine

/-- A legal request (R42): each operand lies in its range. -/
abbrev Legal (m : LabelMax) (inp : EncIn) : Prop :=
  inp.label.toNat ≤ m.value ∧ inp.data.toNat ≤ 524287 ∧ inp.ssm.toNat ≤ 3 ∧ inp.sdi.toNat ≤ 3

/-- A valid word has an odd number of ones (R92). -/
abbrev ValidWord (w : ArincWord) : Prop := popcount w % 2 = 1

/-- The ports agree: the outputs of each unit are those its rule gives for its present inputs (R18). -/
abbrev PortsAgree (s : State) : Prop :=
  s.encOut = encPorts Config.labelMax s.encIn ∧ s.decOut = decPorts s.decIn

/-- Every pending request is an operation of its unit's format: the run of such a list is safe, no step of it faults or
refuses. -/
abbrev PendingWf (s : State) : Prop := ∀ r ∈ s.pending, r.wf = true

/-- The operations of a list, performed one after another on the machine. -/
def execAll : List Instr → State → Host.Outcome State Fault Refusal
  | [], s => .next s
  | i :: rest, s =>
    match exec i s with
    | .next t => execAll rest t
    | .fault f => .fault f
    | .refused r => .refused r

end Sys2Proof.Machine
end

