-- ==== Sys2Proof/Certificates/Slice0/Obligations.lean ====
section
/-! DEFINITION. The statements for the provers. Each docstring names the rule of spec/ it formalises. Operands are always
written label `l`, data `d`, ssm `m`, sdi `i`. -/

open Sys2Proof Sys2Proof.Machine

/-! ## The step and the requests -/

/-- R124, R47: a step takes the next request off the host's list and performs its operation, nothing else. That the list is a
field of the state is the model's choice, log entry 2. -/
def Obligations.StepPerformsThePresentedOperation : Prop :=
  ∀ (s : State) (r : Request) (rest : List Request) (op : Instr),
    s.pending = r :: rest → decodeRequest r = .ok op → step s = exec op { s with pending := rest }

/-- R47 and log entry 8 (the model's choice of how an ended run shows): with nothing pending the step refuses. -/
def Obligations.RunEndsWhenNothingIsPending : Prop :=
  ∀ s : State, s.pending = [] → step s = .refused .endOfRun

/-- R104: a word of 2^32 or more is refused with InvalidArgument(WORD), by the step and by the source's form alike, and never
truncated; no result of ENC's ports is InvalidArgument(WORD); and DEC has no error on its 32-bit port. -/
def Obligations.WordBeyond32BitsIsRefusedAndNeverTruncated : Prop :=
  (∀ (s : State) (w : Nat) (rest : List Request),
    2 ^ 32 ≤ w → s.pending = ⟨.dec, w⟩ :: rest → step s = .fault .invalidArgumentWord) ∧
  (∀ w : Int, w < 0 ∨ 2 ^ 32 ≤ w → sourceDecode w = .error .word) ∧
  (∀ out : EncOut, out.result ≠ .invalidArgument .word) ∧
  (∀ (w : ArincWord) (s : State), ∃ t, exec (.decode w) s = .next t)

/-- R103, R45: a request is an operation exactly when its number fits its unit's format. That a request is a number which may be
too large is the model's form of it, log entry 11. -/
def Obligations.RequestIsAnOperationExactlyWhenItFits : Prop :=
  ∀ r : Request, (∃ op, decodeRequest r = .ok op) ↔ r.wf = true

/-- Reading back the request of any operation gives that operation, every operand whole. -/
def Obligations.DecodingInvertsEncodingForEveryOperation : Prop :=
  ∀ op : Instr, decodeRequest (encodeInstr op) = .ok op

/-- Each request has one meaning: whatever a request is read as is written as that request. -/
def Obligations.EncodingInvertsDecoding : Prop :=
  ∀ (r : Request) (op : Instr), decodeRequest r = .ok op → encodeInstr op = r

/-- R33: ENC_REQ is the 64-bit vector with label in bits 63 to 48, data in 47 to 16, ssm in 15 to 8 and sdi in 7 to 0. -/
def Obligations.RequestVectorLayout : Prop :=
  ∀ (l : LabelPort) (d : DataPort) (m : SsmPort) (i : SdiPort),
    encodeInstr (.encode l d m i) = ⟨.enc, l.toNat * 2 ^ 48 + d.toNat * 2 ^ 16 + m.toNat * 2 ^ 8 + i.toNat⟩ ∧
    (encReq l d m i).extractLsb' 48 16 = l ∧ (encReq l d m i).extractLsb' 16 32 = d ∧
    (encReq l d m i).extractLsb' 8 8 = m ∧ (encReq l d m i).extractLsb' 0 8 = i

/-- The model's choice: the operation the decoder reads from an opcode-table row is the one the next step performs, and only the
request is added to the machine. No bit of a request selects its operation (R36, the spec's decision D11), so that a row names its
unit by its width is log entry 7; that a request is presented as the head of the list is log entry 2. -/
def Obligations.TableRowIsPerformedByTheNextStep : Prop :=
  ∀ (s : State) (nbits w : Nat) (op : Instr),
    decodeTableWord nbits w = some op → step (s.withFetchWord nbits w) = exec op s

/-- Four requests written out in 95_test_vectors.md sections 2.2, 2.3 and 2.5, read as opcode-table rows, and a word of 33 bits,
which is refused (R104). That a row is read by its width is the model's choice, log entry 7. -/
def Obligations.WrittenOutRequestsDecode : Prop :=
  decodeTableWord 64 0x0008000003E80000 = some (.encode 8 1000 0 0) ∧
  decodeTableWord 64 0x0083000123450102 = some (.encode 131 74565 1 2) ∧
  decodeTableWord 64 0x0100000800000404 = some (.encode 256 524288 4 4) ∧
  decodeTableWord 32 0x10007D00 = some (.decode 0x10007D00) ∧
  decodeTableWord 32 0x100000000 = none

/-! ## ENCODE: completion and result -/

/-- R30: for legal operands ENCODE completes with no error, and every bit of the word is the operand bit, or the parity bit,
that the layout puts there. -/
def Obligations.LegalEncodePlacesEveryField : Prop :=
  ∀ (l : LabelPort) (d : DataPort) (m : SsmPort) (i : SdiPort) (s : State), Legal Config.labelMax ⟨l, d, m, i⟩ →
    ∃ t, exec (.encode l d m i) s = .next t ∧ t.encOut.err = 0 ∧
      (∀ k, k < 8 → t.encOut.word.getLsbD (31 - k) = l.getLsbD k) ∧
      (∀ k, k < 19 → t.encOut.word.getLsbD (5 + k) = d.getLsbD k) ∧
      (∀ k, k < 2 → t.encOut.word.getLsbD (3 + k) = m.getLsbD k) ∧
      (∀ k, k < 2 → t.encOut.word.getLsbD (1 + k) = i.getLsbD k) ∧
      (t.encOut.word.getLsbD 0 = true ↔ popcount (t.encOut.word.extractLsb' 1 31) % 2 = 0)

/-- R31 (which the spec derives): the value of the word as a number. -/
def Obligations.LegalEncodeWordValue : Prop :=
  ∀ (l : LabelPort) (d : DataPort) (m : SsmPort) (i : SdiPort) (s : State), Legal Config.labelMax ⟨l, d, m, i⟩ →
    ∃ t, exec (.encode l d m i) s = .next t ∧
      t.encOut.word.toNat = (rev8 (l.extractLsb' 0 8)).toNat * 16777216 + d.toNat * 32 + m.toNat * 8 + i.toNat * 2
        + (1 + popcount (t.encOut.word.extractLsb' 1 31)) % 2

/-- R56: the 31-bit body field by field, and as a number. -/
def Obligations.BodyLayoutAndValue : Prop :=
  ∀ (l : LabelPort) (d : DataPort) (m : SsmPort) (i : SdiPort),
    (bodyOf ⟨l, d, m, i⟩).extractLsb' 23 8 = labelRev l ∧
    (bodyOf ⟨l, d, m, i⟩).extractLsb' 4 19 = d.extractLsb' 0 19 ∧
    (bodyOf ⟨l, d, m, i⟩).extractLsb' 2 2 = m.extractLsb' 0 2 ∧
    (bodyOf ⟨l, d, m, i⟩).extractLsb' 0 2 = i.extractLsb' 0 2 ∧
    (Legal Config.labelMax ⟨l, d, m, i⟩ →
      (bodyOf ⟨l, d, m, i⟩).toNat = (labelRev l).toNat * 2 ^ 23 + d.toNat * 16 + m.toNat * 4 + i.toNat)

/-- R57: the parity bit is 1 exactly when the body's count of ones, 0 to 31, is even; it is the complement of the exclusive
or of the body; and the count is the sum of the fields' counts, the label taken before reversal. -/
def Obligations.ParityBitIsOddParityOverTheBody : Prop :=
  ∀ inp : EncIn,
    popcount (bodyOf inp) ≤ 31 ∧
    (parityBit (bodyOf inp) = 1 ↔ popcount (bodyOf inp) % 2 = 0) ∧
    (parityBit (bodyOf inp) = 0 ↔ popcount (bodyOf inp) % 2 = 1) ∧
    parityBit (bodyOf inp) = BitVec.ofBool (!xorr (bodyOf inp)) ∧
    popcount (bodyOf inp) = popcount (labelBin inp.label) + popcount (inp.data.extractLsb' 0 19)
      + popcount (inp.ssm.extractLsb' 0 2) + popcount (inp.sdi.extractLsb' 0 2)

/-- R58: for legal operands the word is the body followed by the parity bit; its smallest value is that of all operands zero
and its largest that of all operands at their maxima. -/
def Obligations.WordIsBodyThenParity : Prop :=
  (∀ (l : LabelPort) (d : DataPort) (m : SsmPort) (i : SdiPort) (s : State), Legal Config.labelMax ⟨l, d, m, i⟩ →
    ∃ t, exec (.encode l d m i) s = .next t ∧
      t.encOut.word.extractLsb' 1 31 = bodyOf ⟨l, d, m, i⟩ ∧
      t.encOut.word.extractLsb' 0 1 = parityBit (bodyOf ⟨l, d, m, i⟩) ∧
      t.encOut.word.toNat = 2 * (bodyOf ⟨l, d, m, i⟩).toNat + (parityBit (bodyOf ⟨l, d, m, i⟩)).toNat ∧
      0x00000001 ≤ t.encOut.word.toNat ∧ t.encOut.word.toNat ≤ 0xFFFFFFFE) ∧
  (∀ s : State, ∃ t, exec (.encode 0 0 0 0) s = .next t ∧ t.encOut = ⟨0x00000001, 0⟩) ∧
  (∀ s : State, ∃ t, exec (.encode 255 524287 3 3) s = .next t ∧ t.encOut = ⟨0xFFFFFFFE, 0⟩)

/-- R32: bit k of the label lands on bit 31 - k of the word; rev8 is its own inverse; and the sixteen bytes it leaves unchanged
are the bit palindromes listed. -/
def Obligations.LabelIsBitReversed : Prop :=
  (∀ (l : LabelPort) (d : DataPort) (m : SsmPort) (i : SdiPort) (s : State), Legal Config.labelMax ⟨l, d, m, i⟩ →
    ∃ t, exec (.encode l d m i) s = .next t ∧
      (∀ k, k < 8 → t.encOut.word.getLsbD (31 - k) = l.getLsbD k ∧ t.encOut.word.getLsbD (24 + k) = l.getLsbD (7 - k)) ∧
      t.encOut.word.extractLsb' 5 19 = d.extractLsb' 0 19 ∧ t.encOut.word.extractLsb' 3 2 = m.extractLsb' 0 2 ∧
      t.encOut.word.extractLsb' 1 2 = i.extractLsb' 0 2) ∧
  (∀ v : BitVec 8, rev8 (rev8 v) = v) ∧
  (∀ v : BitVec 8, rev8 v = v ↔
    v ∈ [0x00#8, 0x18#8, 0x24#8, 0x3C#8, 0x42#8, 0x5A#8, 0x66#8, 0x7E#8, 0x81#8, 0x99#8, 0xA5#8, 0xBD#8, 0xC3#8, 0xDB#8,
      0xE7#8, 0xFF#8])

/-- R87: every word ENCODE returns has an odd number of ones, from 1 to 31. -/
def Obligations.EncodedWordHasOddOnes : Prop :=
  ∀ (l : LabelPort) (d : DataPort) (m : SsmPort) (i : SdiPort) (s : State), Legal Config.labelMax ⟨l, d, m, i⟩ →
    ∃ t, exec (.encode l d m i) s = .next t ∧ popcount t.encOut.word % 2 = 1 ∧ popcount t.encOut.word ≤ 31

/-- R86: the word of legal operands, written with leading zeros, is exactly 32 binary digits that read back as it, and lies
between 0x00000001 and 0xFFFFFFFE. -/
def Obligations.EncodedWordHasThirtyTwoDigits : Prop :=
  ∀ (l : LabelPort) (d : DataPort) (m : SsmPort) (i : SdiPort) (s : State), Legal Config.labelMax ⟨l, d, m, i⟩ →
    ∃ t, exec (.encode l d m i) s = .next t ∧
      (render 32 t.encOut.word.toNat).length = 32 ∧ parse (render 32 t.encOut.word.toNat) = t.encOut.word.toNat ∧
      0x00000001 ≤ t.encOut.word.toNat ∧ t.encOut.word.toNat ≤ 0xFFFFFFFE

/-- R88: changing one operand, both requests legal, changes at most that operand's field and the parity bit; and the boundary
values of the source's list. -/
def Obligations.EachOperandOwnsItsFieldBits : Prop :=
  (∀ (l l' : LabelPort) (d d' : DataPort) (m m' : SsmPort) (i i' : SdiPort) (s : State),
    Legal Config.labelMax ⟨l, d, m, i⟩ → Legal Config.labelMax ⟨l', d', m', i'⟩ →
    ∃ t t', exec (.encode l d m i) s = .next t ∧ exec (.encode l' d' m' i') s = .next t' ∧
      (d = d' → m = m' → i = i' → ∀ b, 1 ≤ b → b < 24 → t.encOut.word.getLsbD b = t'.encOut.word.getLsbD b) ∧
      (l = l' → m = m' → i = i' → ∀ b, (1 ≤ b ∧ b < 5) ∨ 24 ≤ b → t.encOut.word.getLsbD b = t'.encOut.word.getLsbD b) ∧
      (l = l' → d = d' → i = i' → ∀ b, (1 ≤ b ∧ b < 3) ∨ 5 ≤ b → t.encOut.word.getLsbD b = t'.encOut.word.getLsbD b) ∧
      (l = l' → d = d' → m = m' → ∀ b, 3 ≤ b → t.encOut.word.getLsbD b = t'.encOut.word.getLsbD b)) ∧
  (∀ s : State, ∃ t, exec (.encode 0 524287 0 0) s = .next t ∧ t.encOut.err = 0 ∧ t.encOut.word.extractLsb' 3 2 = 0) ∧
  (∀ s : State, ∃ t, exec (.encode 0 0 0 0) s = .next t ∧ t.encOut = ⟨0x00000001, 0⟩)

/-! ## ENCODE: the error -/

/-- R52: the label check compares the whole port with 255, which is the OR of its bits 15 to 8; 256, 2047 and 2048 are
refused. -/
def Obligations.LabelCheckComparesTheWholePort : Prop :=
  (∀ (l : LabelPort) (d : DataPort) (m : SsmPort) (i : SdiPort) (s : State),
    ∃ t, exec (.encode l d m i) s = .next t ∧
      (t.encOut.err.getLsbD 0 = true ↔ 255 < l.toNat) ∧
      (t.encOut.err.getLsbD 0 = true ↔ ∃ k, 8 ≤ k ∧ k < 16 ∧ l.getLsbD k = true)) ∧
  (∀ (l : LabelPort) (d : DataPort) (m : SsmPort) (i : SdiPort) (s : State), l ∈ [256#16, 2047#16, 2048#16] →
    ∃ t, exec (.encode l d m i) s = .next t ∧ t.encOut.err.getLsbD 0 = true)

/-- R53: the data, SSM and SDI checks compare the whole ports, which is the OR of the bits above the field. -/
def Obligations.DataSsmSdiChecksCompareTheWholePorts : Prop :=
  (∀ (l : LabelPort) (d : DataPort) (m : SsmPort) (i : SdiPort) (s : State),
    ∃ t, exec (.encode l d m i) s = .next t ∧
      (t.encOut.err.getLsbD 1 = true ↔ 524287 < d.toNat) ∧
      (t.encOut.err.getLsbD 1 = true ↔ ∃ k, 19 ≤ k ∧ k < 32 ∧ d.getLsbD k = true) ∧
      (t.encOut.err.getLsbD 2 = true ↔ 3 < m.toNat) ∧
      (t.encOut.err.getLsbD 2 = true ↔ ∃ k, 2 ≤ k ∧ k < 8 ∧ m.getLsbD k = true) ∧
      (t.encOut.err.getLsbD 3 = true ↔ 3 < i.toNat) ∧
      (t.encOut.err.getLsbD 3 = true ↔ ∃ k, 2 ≤ k ∧ k < 8 ∧ i.getLsbD k = true)) ∧
  (∀ (l : LabelPort) (d : DataPort) (m : SsmPort) (s : State),
    ∃ t, exec (.encode l d m 0xFF) s = .next t ∧ t.encOut.err.getLsbD 3 = true)

/-- R102: `enc_err` is 0b0000 exactly for Ok, any other value means InvalidArgument with every offending operand flagged, and
all sixteen values occur. -/
def Obligations.ErrFlagsEveryOffendingOperand : Prop :=
  (∀ (l : LabelPort) (d : DataPort) (m : SsmPort) (i : SdiPort) (s : State),
    ∃ t, exec (.encode l d m i) s = .next t ∧
      (t.encOut.err.getLsbD 0 = true ↔ 255 < l.toNat) ∧ (t.encOut.err.getLsbD 1 = true ↔ 524287 < d.toNat) ∧
      (t.encOut.err.getLsbD 2 = true ↔ 3 < m.toNat) ∧ (t.encOut.err.getLsbD 3 = true ↔ 3 < i.toNat) ∧
      (t.encOut.err = 0 ↔ t.encOut.result = .ok t.encOut.word) ∧
      (t.encOut.err ≠ 0 ↔ ∃ f, t.encOut.result = .invalidArgument f)) ∧
  (∀ (e : EncErr) (s : State), ∃ l d m i t, exec (.encode l d m i) s = .next t ∧ t.encOut.err = e)

/-- R107: the field named is the operand of the lowest-numbered set bit of `enc_err`, so it is out of range and every operand
before it is in range; with the rule's two examples. -/
def Obligations.NamedFieldIsTheFirstOffender : Prop :=
  (∀ (l : LabelPort) (d : DataPort) (m : SsmPort) (i : SdiPort) (s : State),
    ∃ t, exec (.encode l d m i) s = .next t ∧
      (t.encOut.result = .invalidArgument .label ↔ 255 < l.toNat) ∧
      (t.encOut.result = .invalidArgument .data ↔ l.toNat ≤ 255 ∧ 524287 < d.toNat) ∧
      (t.encOut.result = .invalidArgument .ssm ↔ l.toNat ≤ 255 ∧ d.toNat ≤ 524287 ∧ 3 < m.toNat) ∧
      (t.encOut.result = .invalidArgument .sdi ↔ l.toNat ≤ 255 ∧ d.toNat ≤ 524287 ∧ m.toNat ≤ 3 ∧ 3 < i.toNat) ∧
      (∀ f, t.encOut.result = .invalidArgument f →
        ∃ n, ErrField.code f = n + 1 ∧ t.encOut.err.getLsbD n = true ∧ ∀ k, k < n → t.encOut.err.getLsbD k = false)) ∧
  (∀ s : State, ∃ t, exec (.encode 256 524288 4 4) s = .next t ∧ t.encOut.err = 0b1111 ∧
    t.encOut.result = .invalidArgument .label) ∧
  (∀ s : State, ∃ t, exec (.encode 0 524288 0 4) s = .next t ∧ t.encOut.err = 0b1010 ∧
    t.encOut.result = .invalidArgument .data)

/-- R109: while an error is reported `enc_word` is 0x00000000, which any decoder reports as invalid, and the result carries no
word. -/
def Obligations.ErrorCarriesTheAllZeroWord : Prop :=
  (∀ (l : LabelPort) (d : DataPort) (m : SsmPort) (i : SdiPort) (s : State), ¬ Legal Config.labelMax ⟨l, d, m, i⟩ →
    ∃ t, exec (.encode l d m i) s = .next t ∧ t.encOut.err ≠ 0 ∧ t.encOut.word = 0x00000000 ∧
      t.encOut.result.word? = none ∧
      ∃ u, exec (.decode t.encOut.word) t = .next u ∧ u.decOut.parityValid = 0)

/-- R89: every request with an operand out of range ends in InvalidArgument and no word; with the source's list of rejections. -/
def Obligations.IllegalEncodeIsRejected : Prop :=
  (∀ (l : LabelPort) (d : DataPort) (m : SsmPort) (i : SdiPort) (s : State), ¬ Legal Config.labelMax ⟨l, d, m, i⟩ →
    ∃ t f, exec (.encode l d m i) s = .next t ∧ t.encOut.result = .invalidArgument f ∧ t.encOut.result.word? = none) ∧
  (∀ (l : LabelPort) (s : State), 256 ≤ l.toNat →
    ∃ t, exec (.encode l 0 0 0) s = .next t ∧ t.encOut.result = .invalidArgument .label) ∧
  (∀ s : State, ∃ t, exec (.encode 0 524288 0 0) s = .next t ∧ t.encOut.result = .invalidArgument .data) ∧
  (∀ s : State, ∃ t, exec (.encode 0 0 4 0) s = .next t ∧ t.encOut.result = .invalidArgument .ssm) ∧
  (∀ s : State, ∃ t, exec (.encode 0 0 0 4) s = .next t ∧ t.encOut.result = .invalidArgument .sdi) ∧
  (∀ s : State, ∃ t, exec (.encode 0 0 0 255) s = .next t ∧ t.encOut.result = .invalidArgument .sdi)

/-- R101: the numeric codes, the allowed range each field stands for, and that a result's code is 0 exactly for Ok and else names
an operand outside its allowed range. -/
def Obligations.ErrorCodesAndAllowedRanges : Prop :=
  (ErrField.code .label = 1 ∧ ErrField.code .data = 2 ∧ ErrField.code .ssm = 3 ∧ ErrField.code .sdi = 4 ∧
    ErrField.code .word = 5) ∧
  (allowedRange .narrow .label = (0, 255) ∧ allowedRange .wide .label = (0, 2047) ∧
    ∀ lm, allowedRange lm .data = (0, 524287) ∧ allowedRange lm .ssm = (0, 3) ∧ allowedRange lm .sdi = (0, 3) ∧
      allowedRange lm .word = (0, 4294967295)) ∧
  ∀ (l : LabelPort) (d : DataPort) (m : SsmPort) (i : SdiPort) (s : State),
    ∃ t, exec (.encode l d m i) s = .next t ∧
      (t.encOut.result.code = 0 ↔ Legal Config.labelMax ⟨l, d, m, i⟩) ∧
      (t.encOut.result.code = 1 → (allowedRange Config.labelMax .label).2 < l.toNat) ∧
      (t.encOut.result.code = 2 → (allowedRange Config.labelMax .data).2 < d.toNat) ∧
      (t.encOut.result.code = 3 → (allowedRange Config.labelMax .ssm).2 < m.toNat) ∧
      (t.encOut.result.code = 4 → (allowedRange Config.labelMax .sdi).2 < i.toNat) ∧
      t.encOut.result.code ≤ 4

/-- R110: an error leaves no trace. The next ENCODE gives the very state it would have given without the failed one, and the next
DECODE the very outputs. R110 speaks of results: that the state is the same whole also rests on log entry 4, the model's choice. -/
def Obligations.FailedEncodeLeavesNoTrace : Prop :=
  ∀ (l l' : LabelPort) (d d' : DataPort) (m m' : SsmPort) (i i' : SdiPort) (w : ArincWord) (s : State),
    ¬ Legal Config.labelMax ⟨l, d, m, i⟩ →
    ∃ t, exec (.encode l d m i) s = .next t ∧
      (∃ u, exec (.encode l' d' m' i') t = .next u ∧ exec (.encode l' d' m' i') s = .next u) ∧
      (∃ u v, exec (.decode w) t = .next u ∧ exec (.decode w) s = .next v ∧ u.decOut = v.decOut ∧ u.decIn = v.decIn)

/-- R54, for the value LABEL_MAX = 2047 that this hardware does not take: labels of 2048 and more are refused, those from 256 to
2047 give the word of the label modulo 256, which is what DECODE returns; with the rule's example. -/
def Obligations.WideLabelMaxTruncatesSilently : Prop :=
  (∀ inp : EncIn, (errMask .wide inp).getLsbD 0 = true ↔ 2047 < inp.label.toNat) ∧
  (∀ inp : EncIn, (errMask .wide inp).getLsbD 0 = true ↔ ∃ k, 11 ≤ k ∧ k < 16 ∧ inp.label.getLsbD k = true) ∧
  (∀ (l : LabelPort) (d : DataPort) (m : SsmPort) (i : SdiPort), l.toNat ≤ 2047 →
    encodeOp .wide ⟨l, d, m, i⟩ = encodeOp .narrow ⟨BitVec.ofNat 16 (l.toNat % 256), d, m, i⟩) ∧
  (∀ (l : LabelPort) (d : DataPort) (m : SsmPort) (i : SdiPort) (w : ArincWord),
    encodeOp .wide ⟨l, d, m, i⟩ = .ok w → (decodeOp w).label.toNat = l.toNat % 256) ∧
  encodeOp .wide ⟨300, 1000, 0, 0⟩ = .ok 0x34007D00 ∧ (decodeOp 0x34007D00).label = 44

/-! ## DECODE -/

/-- R72 to R76: DECODE completes on every word, each field being the slice the rule names, the label reversed back, each
zero-extended to its port. -/
def Obligations.DecodeCutsEveryField : Prop :=
  ∀ (w : ArincWord) (s : State), ∃ t, exec (.decode w) s = .next t ∧
    (∀ k, t.decOut.label.getLsbD k = (decide (k < 8) && w.getLsbD (31 - k))) ∧
    (∀ k, t.decOut.data.getLsbD k = (decide (k < 19) && w.getLsbD (5 + k))) ∧
    (∀ k, t.decOut.ssm.getLsbD k = (decide (k < 2) && w.getLsbD (3 + k))) ∧
    (∀ k, t.decOut.sdi.getLsbD k = (decide (k < 2) && w.getLsbD (1 + k))) ∧
    (∀ k, t.decOut.parity.getLsbD k = (decide (k < 1) && w.getLsbD 0)) ∧
    t.decOut.label.toNat ≤ 255 ∧ t.decOut.data.toNat ≤ 524287 ∧ t.decOut.ssm.toNat ≤ 3 ∧ t.decOut.sdi.toNat ≤ 3 ∧
    t.decOut.parity.toNat ≤ 1

/-- R77, R78: the expected bit is 1 exactly when `word[31:1]` has an even number of ones, the complement of their exclusive or;
`parity_valid` is 1 exactly when the received bit equals it, which is exactly when the whole word has an odd number of
ones, the exclusive or of all 32 bits. -/
def Obligations.ParityVerdictIsOddOnes : Prop :=
  ∀ (w : ArincWord) (s : State), ∃ t, exec (.decode w) s = .next t ∧
    ((decTrace w).expected = 1 ↔ popcount (w.extractLsb' 1 31) % 2 = 0) ∧
    ((decTrace w).expected = 0 ↔ popcount (w.extractLsb' 1 31) % 2 = 1) ∧
    (decTrace w).expected = BitVec.ofBool (!xorr (w.extractLsb' 1 31)) ∧
    (t.decOut.parityValid = 1 ↔ w.extractLsb' 0 1 = (decTrace w).expected) ∧
    (t.decOut.parityValid = 1 ↔ popcount w % 2 = 1) ∧
    t.decOut.parityValid = BitVec.ofBool (xorr w)

/-- R95 (which the spec derives): DEC's outputs are legal operands of ENC for either LABEL_MAX. -/
def Obligations.DecodedFieldsAreLegalOperands : Prop :=
  ∀ (w : ArincWord) (s : State), ∃ t, exec (.decode w) s = .next t ∧
    Legal .narrow ⟨t.decOut.label, t.decOut.data, t.decOut.ssm, t.decOut.sdi⟩ ∧ t.decOut.parity.toNat ≤ 1 ∧
    ∀ lm : LabelMax, errMask lm ⟨t.decOut.label, t.decOut.data, t.decOut.ssm, t.decOut.sdi⟩ = 0

/-- R79: DECODE with a wrong parity bit returns the same label, data, SSM and SDI as with the right one. -/
def Obligations.WrongParityLeavesTheFieldsAsTheyStand : Prop :=
  ∀ (w : ArincWord) (s : State), ∃ t u, exec (.decode w) s = .next t ∧ exec (.decode (w ^^^ 1)) s = .next u ∧
    t.decOut.parityValid ≠ u.decOut.parityValid ∧
    t.decOut.label = u.decOut.label ∧ t.decOut.data = u.decOut.data ∧ t.decOut.ssm = u.decOut.ssm ∧
    t.decOut.sdi = u.decOut.sdi

/-! ## ENCODE and DECODE together -/

/-- R85: round trip, `enc_word` driving `dec_word`: the same four values, the parity bit ENCODE computed, and parity_valid. For
LABEL_MAX = 2047 the label comes back exactly for labels up to 255. -/
def Obligations.RoundTripReturnsTheOperands : Prop :=
  (∀ (l : LabelPort) (d : DataPort) (m : SsmPort) (i : SdiPort) (s : State), Legal Config.labelMax ⟨l, d, m, i⟩ →
    ∃ t u, exec (.encode l d m i) s = .next t ∧ t.encOut.result = .ok t.encOut.word ∧
      exec (.decode t.encOut.word) t = .next u ∧
      u.decOut = ⟨l, d, m, i, (parityBit (bodyOf ⟨l, d, m, i⟩)).setWidth 8, 1⟩) ∧
  (∀ (l : LabelPort) (d : DataPort) (m : SsmPort) (i : SdiPort) (w : ArincWord),
    encodeOp .wide ⟨l, d, m, i⟩ = .ok w →
    (decodeOp w).data = d ∧ (decodeOp w).ssm = m ∧ (decodeOp w).sdi = i ∧ (decodeOp w).parityValid = true ∧
      ((decodeOp w).label = l ↔ l.toNat ≤ 255))

/-- R91 (which the spec derives): DEC's outputs driving ENC's inputs give the word back, with its parity bit repaired when it was
wrong. -/
def Obligations.ReencodingRepairsOnlyTheParityBit : Prop :=
  ∀ (w : ArincWord) (s : State), ∃ t u, exec (.decode w) s = .next t ∧
    exec (.encode t.decOut.label t.decOut.data t.decOut.ssm t.decOut.sdi) t = .next u ∧ u.encOut.err = 0 ∧
    (t.decOut.parityValid = 1 → u.encOut.word = w) ∧ (t.decOut.parityValid = 0 → u.encOut.word = w ^^^ 0x00000001)

/-- R90: any single flipped bit of an encoded word is reported, and it is off in its own field only. -/
def Obligations.EverySingleBitFlipIsDetected : Prop :=
  ∀ (l : LabelPort) (d : DataPort) (m : SsmPort) (i : SdiPort) (s : State) (b : Nat),
    Legal Config.labelMax ⟨l, d, m, i⟩ → b < 32 →
    ∃ t u, exec (.encode l d m i) s = .next t ∧ exec (.decode (t.encOut.word ^^^ (1#32 <<< b))) t = .next u ∧
      u.decOut.parityValid = 0 ∧
      u.decOut.label = (if 24 ≤ b then l ^^^ (1#16 <<< (31 - b)) else l) ∧
      u.decOut.data = (if 5 ≤ b ∧ b < 24 then d ^^^ (1#32 <<< (b - 5)) else d) ∧
      u.decOut.ssm = (if 3 ≤ b ∧ b < 5 then m ^^^ (1#8 <<< (b - 3)) else m) ∧
      u.decOut.sdi = (if 1 ≤ b ∧ b < 3 then i ^^^ (1#8 <<< (b - 1)) else i)

/-- R94 (which the spec derives): an error pattern of an odd number of bits flips the verdict, one of an even number keeps it. -/
def Obligations.ParityCatchesExactlyOddErrorPatterns : Prop :=
  ∀ (w e : ArincWord) (s : State), ∃ t u, exec (.decode w) s = .next t ∧ exec (.decode (w ^^^ e)) s = .next u ∧
    (popcount e % 2 = 1 → u.decOut.parityValid ≠ t.decOut.parityValid) ∧
    (popcount e % 2 = 0 → u.decOut.parityValid = t.decOut.parityValid)

/-- R92 (which the spec derives): exactly half of the words are valid, and of a word and the same with its parity bit flipped
exactly one is. -/
def Obligations.ExactlyHalfOfTheWordsAreValid : Prop :=
  Nat.card { w : ArincWord // ValidWord w } = 2 ^ 31 ∧
  (∀ w : ArincWord, ValidWord w ↔ ¬ ValidWord (w ^^^ 1)) ∧
  (∀ w : ArincWord, (decodeOp w).parityValid = true ↔ ValidWord w)

/-- R93, R44 (which the spec derives): ENCODE is one to one on legal requests, and the words it returns are exactly the valid
ones. -/
def Obligations.EncodeIsABijectionOntoTheValidWords : Prop :=
  (∀ (a b : EncIn) (w : ArincWord),
    encodeOp Config.labelMax a = .ok w → encodeOp Config.labelMax b = .ok w → a = b) ∧
  (∀ w : ArincWord, ValidWord w ↔ ∃ inp : EncIn, encodeOp Config.labelMax inp = .ok w) ∧
  (∀ inp : EncIn, Legal Config.labelMax inp ↔ ∃ w, encodeOp Config.labelMax inp = .ok w)

/-- R97 (which the spec derives): reversal keeps the count of ones, so the verdict taken over the recovered fields is the verdict
over the word. -/
def Obligations.ReversalDoesNotMatterToParity : Prop :=
  (∀ v : BitVec 8, popcount (rev8 v) = popcount v) ∧
  (∀ (w : ArincWord) (s : State), ∃ t, exec (.decode w) s = .next t ∧
    (t.decOut.parityValid = 1 ↔
      (popcount t.decOut.label + popcount t.decOut.data + popcount t.decOut.ssm + popcount t.decOut.sdi
        + popcount t.decOut.parity) % 2 = 1))

/-- R17: the ports carry the result values. Ok(w) is `enc_err = 0b0000` with `enc_word = w`; InvalidArgument(f) is `enc_err` not
zero with `f` the operand of its lowest-numbered set bit, never WORD, and `enc_word` zero; the six DEC ports are the
DecodedWord, component by component. -/
def Obligations.PortsCarryTheResultValues : Prop :=
  (∀ (l : LabelPort) (d : DataPort) (m : SsmPort) (i : SdiPort) (s : State),
    ∃ t, exec (.encode l d m i) s = .next t ∧ t.encOut.result = encodeOp Config.labelMax ⟨l, d, m, i⟩ ∧
      (∀ w, t.encOut.result = .ok w ↔ t.encOut.err = 0 ∧ t.encOut.word = w) ∧
      (∀ f, t.encOut.result = .invalidArgument f →
        t.encOut.err ≠ 0 ∧ t.encOut.word = 0 ∧ f ≠ .word ∧ t.encOut.err.getLsbD (ErrField.code f - 1) = true ∧
          ∀ k, k < ErrField.code f - 1 → t.encOut.err.getLsbD k = false)) ∧
  (∀ (w : ArincWord) (s : State),
    ∃ t, exec (.decode w) s = .next t ∧ t.decOut.label = (decodeOp w).label ∧ t.decOut.data = (decodeOp w).data ∧
      t.decOut.ssm = (decodeOp w).ssm ∧ t.decOut.sdi = (decodeOp w).sdi ∧ t.decOut.parity = (decodeOp w).parity ∧
      (t.decOut.parityValid = 1 ↔ (decodeOp w).parityValid = true))

/-- R60, R79, R115: the traces' intermediate values are those the result is made of, and an ENCODE has one exactly when it gives a
word. -/
def Obligations.TracesAgreeWithTheResults : Prop :=
  (∀ (lm : LabelMax) (inp : EncIn),
    (encTrace lm inp).map (fun tr => tr.body ++ tr.parity) = (encodeOp lm inp).word?) ∧
  (∀ (lm : LabelMax) (inp : EncIn) (tr : EncTrace), encTrace lm inp = some tr →
    tr.labelBin = inp.label.extractLsb' 0 8 ∧ tr.labelRev = rev8 tr.labelBin ∧ tr.body.extractLsb' 23 8 = tr.labelRev ∧
      tr.ones = popcount tr.body ∧ (tr.parity = 1 ↔ tr.ones % 2 = 0)) ∧
  (∀ w : ArincWord, (decTrace w).labelRev = w.extractLsb' 24 8 ∧ (decTrace w).ones = popcount (w.extractLsb' 1 31) ∧
    ((decTrace w).expected = 1 ↔ (decTrace w).ones % 2 = 0) ∧
    (decodeOp w).parityValid = (w.extractLsb' 0 1 == (decTrace w).expected))

/-! ## The source's own form -/

/-- R8: the source's string algorithm for ENCODE, over the integers its operands denote, is the bit vector form, for either
LABEL_MAX, errors included. -/
def Obligations.StringFormOfEncodeIsTheBitVectorForm : Prop :=
  ∀ (lm : LabelMax) (l : LabelPort) (d : DataPort) (m : SsmPort) (i : SdiPort),
    sourceEncode lm l.toNat d.toNat m.toNat i.toNat =
      match encodeOp lm ⟨l, d, m, i⟩ with
      | .ok w => .ok w.toNat
      | .invalidArgument f => .error f

/-- R8: the source's string algorithm for DECODE is the bit vector form. -/
def Obligations.StringFormOfDecodeIsTheBitVectorForm : Prop :=
  ∀ w : ArincWord, sourceDecode w.toNat = .ok (decodeOp w)

/-- 90_conflicts.md C5: over signed and unbounded operands, a lone negative or too large operand is rejected naming its field,
and a request is accepted exactly when all four are in range, with a word below 2^32. -/
def Obligations.SignedOperandsOutOfRangeAreRejected : Prop :=
  ∀ (lm : LabelMax) (l d m i : Int),
    ((l < 0 ∨ (lm.value : Int) < l) → sourceEncode lm l d m i = .error .label) ∧
    (0 ≤ l → l ≤ (lm.value : Int) → (d < 0 ∨ 524287 < d) → sourceEncode lm l d m i = .error .data) ∧
    (0 ≤ l → l ≤ (lm.value : Int) → 0 ≤ d → d ≤ 524287 → (m < 0 ∨ 3 < m) → sourceEncode lm l d m i = .error .ssm) ∧
    (0 ≤ l → l ≤ (lm.value : Int) → 0 ≤ d → d ≤ 524287 → 0 ≤ m → m ≤ 3 → (i < 0 ∨ 3 < i) →
      sourceEncode lm l d m i = .error .sdi) ∧
    (0 ≤ l → l ≤ (lm.value : Int) → 0 ≤ d → d ≤ 524287 → 0 ≤ m → m ≤ 3 → 0 ≤ i → i ≤ 3 →
      ∃ w : Nat, w < 2 ^ 32 ∧ sourceEncode lm l d m i = .ok w)

/-! ## The whole machine -/

/-- R96, R103: every operation on every state gives a next state: nothing faults, refuses or hangs. -/
def Obligations.EveryOperationCompletes : Prop :=
  ∀ (op : Instr) (s : State), ∃ t, exec op s = .next t

/-- R60: ENCODE writes ENC's outputs and nothing else, whether it ends in a word or in the error. What the host holds on `dec_word`
meanwhile R60 does not say: that DEC's input, and so its outputs, stay as they were is the model's choice, log entry 4 (DESIGN
CHOICE). That the operands stand on ENC's inputs is R124; that the list is part of the state is log entry 2. -/
def Obligations.EncodeChangesOnlyEncPorts : Prop :=
  ∀ (l : LabelPort) (d : DataPort) (m : SsmPort) (i : SdiPort) (s : State),
    ∃ t, exec (.encode l d m i) s = .next t ∧ t.encIn = ⟨l, d, m, i⟩ ∧
      t.decIn = s.decIn ∧ t.decOut = s.decOut ∧ t.pending = s.pending

/-- R79: DECODE writes DEC's outputs and nothing else. What the host holds on ENC's inputs meanwhile R79 does not say: that they, and
so ENC's outputs, stay as they were is the model's choice, log entry 4 (DESIGN CHOICE). That the operand stands on `dec_word` is
R124; that the list is part of the state is log entry 2. -/
def Obligations.DecodeChangesOnlyDecPorts : Prop :=
  ∀ (w : ArincWord) (s : State),
    ∃ t, exec (.decode w) s = .next t ∧ t.decIn = w ∧
      t.encIn = s.encIn ∧ t.encOut = s.encOut ∧ t.pending = s.pending

/-- R24: performing an operation again with the same operands gives the same result. That the state is the same whole also rests on
log entry 4, the model's choice that the other unit's ports stay. -/
def Obligations.EveryOperationIsIdempotent : Prop :=
  ∀ (op : Instr) (s t : State), exec op s = .next t → exec op t = .next t

/-- R18: no output of a unit depends on the state, that is on any earlier input of it or on the other unit's. -/
def Obligations.OutputsDependOnOwnOperandsOnly : Prop :=
  (∀ (l : LabelPort) (d : DataPort) (m : SsmPort) (i : SdiPort) (s s' : State),
    ∃ t t', exec (.encode l d m i) s = .next t ∧ exec (.encode l d m i) s' = .next t' ∧ t.encOut = t'.encOut) ∧
  (∀ (w : ArincWord) (s s' : State),
    ∃ t t', exec (.decode w) s = .next t ∧ exec (.decode w) s' = .next t' ∧ t.decOut = t'.decOut)

/-- R26: whatever operations came before, on either unit and in any number and order, the next one gives the result it would have
given first; and two operations on different units may be performed in either order. R26 speaks of results only: the last clause
compares whole states, and so also rests on log entry 4 (DESIGN CHOICE), the model's choice that each unit's ports stay during the
other's operation. -/
def Obligations.HistoryAndOrderChangeNoResult : Prop :=
  (∀ (before : List Instr) (s : State) (l : LabelPort) (d : DataPort) (m : SsmPort) (i : SdiPort),
    ∃ t u v, execAll before s = .next t ∧ exec (.encode l d m i) t = .next u ∧ exec (.encode l d m i) s = .next v ∧
      u.encOut = v.encOut) ∧
  (∀ (before : List Instr) (s : State) (w : ArincWord),
    ∃ t u v, execAll before s = .next t ∧ exec (.decode w) t = .next u ∧ exec (.decode w) s = .next v ∧
      u.decOut = v.decOut) ∧
  (∀ (l : LabelPort) (d : DataPort) (m : SsmPort) (i : SdiPort) (w : ArincWord) (s : State),
    ∃ u, execAll [.encode l d m i, .decode w] s = .next u ∧ execAll [.decode w, .encode l d m i] s = .next u)

/-- R18: the outputs on the ports are those the rules give for the present inputs, and every step keeps it so. -/
def Obligations.EveryStepKeepsThePortsInAgreement : Prop :=
  ∀ s t : State, PortsAgree s → step s = .next t → PortsAgree t

/-- R19: before the first operation the outputs are already what the rules give for the inputs on the ports. -/
def Obligations.PortsAgreeAtReset : Prop :=
  PortsAgree State.reset

/-- R47, R129: a step that answers a next state has made exactly one request, the first of the host's list, which is a field of the
state by the model's choice, log entry 2. -/
def Obligations.EachStepMakesExactlyOneRequest : Prop :=
  ∀ s t : State, step s = .next t → ∃ r, s.pending = r :: t.pending ∧ r.wf = true

/-- R129 (which the spec derives): a list of n requests that are operations is over after n steps, none of which stops, and the
ports then hold what performing those operations in order leaves. The list is a field of the state by the model's choice, log
entry 2. -/
def Obligations.EveryListOfOperationsRunsToItsEnd : Prop :=
  (∀ s : State, PendingWf s → ∃ t, Sys2Proof.core.run s.pending.length s = .next t ∧ t.pending = []) ∧
  (∀ (ops : List Instr) (s : State),
    Sys2Proof.core.run ops.length { s with pending := ops.map encodeInstr } = execAll ops { s with pending := [] })
end

