-- ==== Sys2Proof/Laws/State.lean ====
section
/-! SUPPORT. One lemma per field per update of State. -/

namespace Sys2Proof.Machine

variable (s : State) (inp : EncIn) (w : ArincWord) (err : EncErr) (out : DecOut) (r : Request)

@[simp] theorem returnWord_encIn : (s.returnWord inp w).encIn = inp := rfl
@[simp] theorem returnWord_encOut : (s.returnWord inp w).encOut = ⟨w, 0⟩ := rfl
@[simp] theorem returnWord_decIn : (s.returnWord inp w).decIn = s.decIn := rfl
@[simp] theorem returnWord_decOut : (s.returnWord inp w).decOut = s.decOut := rfl
@[simp] theorem returnWord_pending : (s.returnWord inp w).pending = s.pending := rfl

@[simp] theorem raiseInvalidArgument_encIn : (s.raiseInvalidArgument inp err).encIn = inp := rfl
@[simp] theorem raiseInvalidArgument_encOut : (s.raiseInvalidArgument inp err).encOut = ⟨0, err⟩ := rfl
@[simp] theorem raiseInvalidArgument_decIn : (s.raiseInvalidArgument inp err).decIn = s.decIn := rfl
@[simp] theorem raiseInvalidArgument_decOut : (s.raiseInvalidArgument inp err).decOut = s.decOut := rfl
@[simp] theorem raiseInvalidArgument_pending : (s.raiseInvalidArgument inp err).pending = s.pending := rfl

@[simp] theorem returnFields_encIn : (s.returnFields w out).encIn = s.encIn := rfl
@[simp] theorem returnFields_encOut : (s.returnFields w out).encOut = s.encOut := rfl
@[simp] theorem returnFields_decIn : (s.returnFields w out).decIn = w := rfl
@[simp] theorem returnFields_decOut : (s.returnFields w out).decOut = out := rfl
@[simp] theorem returnFields_pending : (s.returnFields w out).pending = s.pending := rfl

@[simp] theorem present_encIn : (s.present r).encIn = s.encIn := rfl
@[simp] theorem present_encOut : (s.present r).encOut = s.encOut := rfl
@[simp] theorem present_decIn : (s.present r).decIn = s.decIn := rfl
@[simp] theorem present_decOut : (s.present r).decOut = s.decOut := rfl
@[simp] theorem present_pending : (s.present r).pending = r :: s.pending := rfl

end Sys2Proof.Machine
end

