-- ==== Sys2Proof/Laws/Ops.lean ====
section
/-! SUPPORT. The laws of the shared operations: counts of ones, reversal, and what a fetch can do. -/

namespace Sys2Proof.Machine

/-- Bit k of a reversed byte is bit 7 - k. -/
@[simp] theorem getLsbD_rev8 (v : BitVec 8) (k : Nat) :
    (rev8 v).getLsbD k = (decide (k < 8) && v.getLsbD (7 - k)) := by
  unfold rev8
  rw [BitVec.getLsbD_ofFnLE]
  by_cases h : k < 8
  · simp [h]
  · simp [h]

@[simp] theorem getElem_rev8 (v : BitVec 8) (k : Nat) (h : k < 8) : (rev8 v)[k] = v.getLsbD (7 - k) := by
  rw [← BitVec.getLsbD_eq_getElem, getLsbD_rev8]
  simp [h]

section Counts

variable {w u : Nat}

@[simp] theorem onesBelow_zero (v : BitVec w) : onesBelow v 0 = 0 := rfl

@[simp] theorem onesBelow_succ (v : BitVec w) (n : Nat) :
    onesBelow v (n + 1) = onesBelow v n + (v.getLsbD n).toNat := rfl

theorem onesBelow_le (v : BitVec w) (n : Nat) : onesBelow v n ≤ n := by
  induction n with
  | zero => simp
  | succ n ih =>
    have := Bool.toNat_le (v.getLsbD n)
    simp only [onesBelow_succ]
    omega

/-- A count depends only on the bits counted. -/
theorem onesBelow_congr {v : BitVec w} {x : BitVec u} {n : Nat}
    (h : ∀ k, k < n → v.getLsbD k = x.getLsbD k) : onesBelow v n = onesBelow x n := by
  induction n with
  | zero => rfl
  | succ n ih =>
    rw [onesBelow_succ, onesBelow_succ, ih fun k hk => h k (by omega), h n (by omega)]

theorem onesBelow_append (a : BitVec w) (b : BitVec u) (n : Nat) :
    onesBelow (a ++ b) (u + n) = onesBelow b u + onesBelow a n := by
  induction n with
  | zero => exact onesBelow_congr fun k hk => by rw [BitVec.getLsbD_append, if_pos (by omega)]
  | succ n ih =>
    rw [← Nat.add_assoc, onesBelow_succ, onesBelow_succ, ih]
    simp [BitVec.getLsbD_append, Nat.add_assoc]

/-- The count of a concatenation is the sum of the counts. -/
theorem popcount_append (a : BitVec w) (b : BitVec u) : popcount (a ++ b) = popcount a + popcount b := by
  have h := onesBelow_append a b w
  rw [Nat.add_comm u w] at h
  exact h.trans (Nat.add_comm _ _)

theorem popcount_le (v : BitVec w) : popcount v ≤ w := onesBelow_le v w

/-- Exclusive or is the count modulo 2. -/
theorem xorBelow_eq (v : BitVec w) (n : Nat) : xorBelow v n = decide (onesBelow v n % 2 = 1) := by
  induction n with
  | zero => rfl
  | succ n ih =>
    rw [xorBelow, ih, onesBelow_succ]
    cases v.getLsbD n <;> rcases Nat.mod_two_eq_zero_or_one (onesBelow v n) with h | h <;>
      simp [h, Nat.add_mod]

/-- Modulo 2 the count of an exclusive or is the sum of the counts. -/
theorem onesBelow_xor (v x : BitVec w) (n : Nat) :
    onesBelow (v ^^^ x) n % 2 = (onesBelow v n + onesBelow x n) % 2 := by
  induction n with
  | zero => rfl
  | succ n ih =>
    simp only [onesBelow_succ, BitVec.getLsbD_xor]
    cases v.getLsbD n <;> cases x.getLsbD n <;> simp <;> omega

end Counts

/-- Everything a fetch can do when it gives an operation. -/
theorem fetch_next {s t : State} {i : Instr} (h : fetch s = .next (i, t)) :
    ∃ r rest, s.pending = r :: rest ∧ decodeRequest r = .ok i ∧ t = { s with pending := rest } := by
  unfold fetch at h
  split at h
  · cases h
  · rename_i r rest hp
    split at h
    · rename_i j hd
      cases h
      exact ⟨r, rest, hp, hd, rfl⟩
    · cases h
    · cases h

/-- A fetch of a request that is an operation. -/
theorem fetch_of_decode {s : State} {r : Request} {rest : List Request} {i : Instr}
    (hp : s.pending = r :: rest) (hd : decodeRequest r = .ok i) :
    fetch s = .next (i, { s with pending := rest }) := by
  simp [fetch, hp, hd]

end Sys2Proof.Machine
end

