-- ==== Sys2Proof/Laws/Decoder.lean ====
section
/-! SUPPORT. The laws of DECODE's slices and of its meaning. -/

namespace Sys2Proof.Machine

variable (w : ArincWord) (k : Nat)

theorem getLsbD_wordLabelRev : (wordLabelRev w).getLsbD k = (decide (k < 8) && w.getLsbD (24 + k)) := by
  simp [wordLabelRev]
theorem getLsbD_wordData : (wordData w).getLsbD k = (decide (k < 19) && w.getLsbD (5 + k)) := by
  simp [wordData]
theorem getLsbD_wordSsm : (wordSsm w).getLsbD k = (decide (k < 2) && w.getLsbD (3 + k)) := by
  simp [wordSsm]
theorem getLsbD_wordSdi : (wordSdi w).getLsbD k = (decide (k < 2) && w.getLsbD (1 + k)) := by
  simp [wordSdi]
theorem getLsbD_wordParity : (wordParity w).getLsbD k = (decide (k < 1) && w.getLsbD k) := by
  simp [wordParity]
theorem getLsbD_wordBody : (wordBody w).getLsbD k = (decide (k < 31) && w.getLsbD (1 + k)) := by
  simp [wordBody]

/-- A word is its body and its parity bit. -/
theorem word_eq_append : w = (wordBody w ++ wordParity w : BitVec (31 + 1)) := by
  apply BitVec.eq_of_getLsbD_eq
  intro j hj
  rw [BitVec.getLsbD_append, getLsbD_wordBody, getLsbD_wordParity]
  by_cases h1 : j < 1
  · simp [h1]
  · have h2 : 1 + (j - 1) = j := by omega
    simp [h1, h2]
    omega

/-- The count of a word is that of its body and its parity bit. -/
theorem popcount_word : popcount w = popcount (wordBody w) + popcount (wordParity w) := by
  conv_lhs => rw [word_eq_append w]
  exact popcount_append (wordBody w) (wordParity w)

/-- The whole of what DECODE does on the machine: `dec_word` is its operand and DEC's outputs are those of R70. -/
theorem exec_decode (s : State) : exec (.decode w) s = .next { s with decIn := w, decOut := decPorts w } := rfl

@[simp] theorem decPorts_label : (decPorts w).label = (rev8 (wordLabelRev w)).setWidth 16 := rfl
@[simp] theorem decPorts_data : (decPorts w).data = (wordData w).setWidth 32 := rfl
@[simp] theorem decPorts_ssm : (decPorts w).ssm = (wordSsm w).setWidth 8 := rfl
@[simp] theorem decPorts_sdi : (decPorts w).sdi = (wordSdi w).setWidth 8 := rfl
@[simp] theorem decPorts_parity : (decPorts w).parity = (wordParity w).setWidth 8 := rfl
@[simp] theorem decPorts_parityValid : (decPorts w).parityValid = BitVec.ofBool (parityValid w) := rfl

end Sys2Proof.Machine
end

