-- ==== Sys2Proof/Laws/Encoder.lean ====
section
/-! SUPPORT. The laws of ENCODE's operand checks and of its meaning. -/

namespace Sys2Proof.Machine

variable (m : LabelMax) (inp : EncIn)

/-- Each bit of `enc_err` is its operand's check (R102). -/
theorem getLsbD_errMask : (errMask m inp).getLsbD 0 = badLabel m inp.label ∧
    (errMask m inp).getLsbD 1 = badData inp.data ∧ (errMask m inp).getLsbD 2 = badSsm inp.ssm ∧
    (errMask m inp).getLsbD 3 = badSdi inp.sdi := by
  unfold errMask
  generalize badLabel m inp.label = a, badData inp.data = b, badSsm inp.ssm = c, badSdi inp.sdi = d
  revert a b c d
  decide

@[simp] theorem errMask_label : (errMask m inp)[0] = badLabel m inp.label := (getLsbD_errMask m inp).1
@[simp] theorem errMask_data : (errMask m inp)[1] = badData inp.data := (getLsbD_errMask m inp).2.1
@[simp] theorem errMask_ssm : (errMask m inp)[2] = badSsm inp.ssm := (getLsbD_errMask m inp).2.2.1
@[simp] theorem errMask_sdi : (errMask m inp)[3] = badSdi inp.sdi := (getLsbD_errMask m inp).2.2.2

/-- No field is named exactly when no bit is set. -/
theorem offender_eq_none_iff (err : EncErr) : offender err = none ↔ err = 0 := by
  revert err; decide

/-- The four checks in full. -/
theorem errMask_eq_zero_iff : errMask m inp = 0 ↔
    inp.label.toNat ≤ m.value ∧ inp.data.toNat ≤ 524287 ∧ inp.ssm.toNat ≤ 3 ∧ inp.sdi.toNat ≤ 3 := by
  have key : ∀ a b c d : Bool, BitVec.ofBool d ++ BitVec.ofBool c ++ BitVec.ofBool b ++ BitVec.ofBool a = (0 : BitVec 4) ↔
      a = false ∧ b = false ∧ c = false ∧ d = false := by decide
  unfold errMask
  rw [key]
  simp [badLabel, badData, badSsm, badSdi, Config.dataMax, Config.ssmMax, Config.sdiMax]

/-- With no operand out of range ENCODE gives the word. -/
theorem encodeOp_of_zero {m : LabelMax} {inp : EncIn} (h : errMask m inp = 0) : encodeOp m inp = .ok (encodeWord inp) := by
  simp [encodeOp, (offender_eq_none_iff _).2 h]

/-- With one, it names a field and gives no word. -/
theorem encodeOp_of_ne_zero {m : LabelMax} {inp : EncIn} (h : errMask m inp ≠ 0) :
    ∃ f, offender (errMask m inp) = some f ∧ encodeOp m inp = .invalidArgument f := by
  cases hf : offender (errMask m inp) with
  | none => exact absurd ((offender_eq_none_iff _).1 hf) h
  | some f => exact ⟨f, rfl, by simp [encodeOp, hf]⟩

theorem encPorts_of_zero {m : LabelMax} {inp : EncIn} (h : errMask m inp = 0) : encPorts m inp = ⟨encodeWord inp, 0⟩ := by
  simp [encPorts, encodeOp_of_zero h, h]

theorem encPorts_of_ne_zero {m : LabelMax} {inp : EncIn} (h : errMask m inp ≠ 0) :
    encPorts m inp = ⟨0, errMask m inp⟩ := by
  obtain ⟨f, -, hf⟩ := encodeOp_of_ne_zero h
  simp [encPorts, hf]

/-- The whole of what ENCODE does on the machine: ENC's inputs are its operands and ENC's outputs are those of R50. -/
theorem exec_encode (l : LabelPort) (d : DataPort) (x : SsmPort) (i : SdiPort) (s : State) :
    exec (.encode l d x i) s =
      .next { s with encIn := ⟨l, d, x, i⟩, encOut := encPorts Config.labelMax ⟨l, d, x, i⟩ } := by
  by_cases h : errMask Config.labelMax ⟨l, d, x, i⟩ = 0
  · simp [exec, execEncode, encodeOp_of_zero h, encPorts_of_zero h, State.returnWord]
  · obtain ⟨f, -, hf⟩ := encodeOp_of_ne_zero h
    simp [exec, execEncode, hf, encPorts_of_ne_zero h, State.raiseInvalidArgument]

/-- Bit by bit, the body of R56. -/
theorem getLsbD_bodyOf (k : Nat) : (bodyOf inp).getLsbD k =
    if k < 2 then inp.sdi.getLsbD k
    else if k < 4 then inp.ssm.getLsbD (k - 2)
    else if k < 23 then inp.data.getLsbD (k - 4)
    else if k < 31 then inp.label.getLsbD (30 - k)
    else false := by
  have h : (bodyOf inp).getLsbD k = (labelRev inp.label ++ inp.data.extractLsb' 0 19 ++ inp.ssm.extractLsb' 0 2
      ++ inp.sdi.extractLsb' 0 2 : BitVec (8 + 19 + 2 + 2)).getLsbD k := rfl
  rw [h]
  by_cases hk : k < 31
  · simp only [BitVec.getLsbD_append, BitVec.getLsbD_extractLsb', labelRev, labelBin, getLsbD_rev8]
    interval_cases k <;> simp
  · rw [BitVec.getLsbD_of_ge _ k (by omega)]
    split_ifs <;> first | rfl | omega

/-- The parity bit is the bit of an even count (R57). -/
@[simp] theorem getLsbD_parityBit (b : Body) : (parityBit b)[0] = decide (popcount b % 2 = 0) := by
  unfold parityBit
  split_ifs with h <;> simp [h]

/-- The word below and above its lowest bit: parity, then the body (R58). -/
theorem getLsbD_encodeWord_append (k : Nat) : (encodeWord inp).getLsbD k =
    if k < 1 then (parityBit (bodyOf inp)).getLsbD k else (bodyOf inp).getLsbD (k - 1) := by
  have h : (encodeWord inp).getLsbD k = (bodyOf inp ++ parityBit (bodyOf inp) : BitVec (31 + 1)).getLsbD k := rfl
  rw [h, BitVec.getLsbD_append]

/-- Bit by bit, the word R50 builds. -/
theorem getLsbD_encodeWord (k : Nat) : (encodeWord inp).getLsbD k =
    if k = 0 then decide (popcount (bodyOf inp) % 2 = 0)
    else if k < 3 then inp.sdi.getLsbD (k - 1)
    else if k < 5 then inp.ssm.getLsbD (k - 3)
    else if k < 24 then inp.data.getLsbD (k - 5)
    else if k < 32 then inp.label.getLsbD (31 - k)
    else false := by
  rw [getLsbD_encodeWord_append, getLsbD_bodyOf]
  by_cases h0 : k = 0
  · subst h0
    simp
  · have e1 : k - 1 - 2 = k - 3 := by omega
    have e2 : k - 1 - 4 = k - 5 := by omega
    have e3 : 30 - (k - 1) = 31 - k := by omega
    rw [if_neg (by omega), if_neg h0, e1, e2, e3]
    split_ifs <;> first | rfl | omega

/-- The count of the word is that of the body and the parity bit. -/
theorem popcount_encodeWord : popcount (encodeWord inp) = popcount (bodyOf inp) + popcount (parityBit (bodyOf inp)) :=
  popcount_append (bodyOf inp) (parityBit (bodyOf inp))

/-- The count of the body is the sum of its fields' counts. -/
theorem popcount_bodyOf : popcount (bodyOf inp) = popcount (labelRev inp.label) + popcount (inp.data.extractLsb' 0 19)
    + popcount (inp.ssm.extractLsb' 0 2) + popcount (inp.sdi.extractLsb' 0 2) := by
  have h : popcount (bodyOf inp) = popcount (labelRev inp.label ++ inp.data.extractLsb' 0 19 ++ inp.ssm.extractLsb' 0 2
      ++ inp.sdi.extractLsb' 0 2 : BitVec (8 + 19 + 2 + 2)) := rfl
  rw [h, popcount_append, popcount_append, popcount_append]

end Sys2Proof.Machine
end

