-- ==== Sys2Proof/Laws/PerInstr.lean ====
section
/-! SUPPORT. Statements made per operation. -/

namespace Sys2Proof.Laws

/-- The request of an operation fits its unit's format and is for the operation's own unit (R35, R36). -/
def FitsFormat.Statement (i : Instr) : Prop :=
  (encodeInstr i).wf = true ∧ (encodeInstr i).unit = i.unit

theorem FitsFormat.encode (label : LabelPort) (data : DataPort) (ssm : SsmPort) (sdi : SdiPort) :
    FitsFormat.Statement (.encode label data ssm sdi) :=
  ⟨decide_eq_true (BitVec.isLt _), rfl⟩

theorem FitsFormat.decode (word : ArincWord) : FitsFormat.Statement (.decode word) :=
  ⟨decide_eq_true (BitVec.isLt _), rfl⟩

end Sys2Proof.Laws
end

