-- ==== Sys2Proof/Laws/Program.lean ====
section
/-! SUPPORT. Operands and short forms of the host's notation. -/

namespace Sys2Proof.Machine

/-- An omitted operand is 0 (R45). -/
@[simp] theorem evalOperand_none (env : Env) (w : Nat) : evalOperand env w none = .ok 0 := rfl

/-- Everything a numeral can do at a port: it stands for itself where it fits, and cannot be written where it does not (R45). -/
theorem evalOperand_num (env : Env) {w n : Nat} (hw : w ≤ 32) :
    evalOperand env w (some (.num n)) = if n < 2 ^ w then .ok (BitVec.ofNat w n) else .error .doesNotFit := by
  have hp : 2 ^ w ≤ 2 ^ 32 := Nat.pow_le_pow_right (by decide) hw
  by_cases h : n < 2 ^ 32
  · have hx : evalOperand env w (some (.num n)) =
        if (BitVec.ofNat 32 n).toNat < 2 ^ w then .ok ((BitVec.ofNat 32 n).setWidth w) else .error .doesNotFit := by
      have hv : operandValue env (.num n) = .ok (.num (BitVec.ofNat 32 n)) := if_pos h
      simp only [evalOperand, hv]
      rfl
    rw [hx, BitVec.toNat_ofNat, Nat.mod_eq_of_lt h, BitVec.setWidth_ofNat_of_le hw]
  · rw [if_neg (by omega)]
    have hv : operandValue env (.num n) = .error .doesNotFit := if_neg h
    simp only [evalOperand, hv]
    rfl

/-- `ENCODE label, data` is `ENCODE label, data, 0, 0` (R45). -/
theorem runLine_encode_two (h : HostState) (v : Var) (label data : Operand) :
    runLine h (.encode v label data none none) = runLine h (.encode v label data (some (.num 0)) (some (.num 0))) := rfl

/-- `ENCODE label, data, ssm` is `ENCODE label, data, ssm, 0` (R45). -/
theorem runLine_encode_three (h : HostState) (v : Var) (label data ssm : Operand) :
    runLine h (.encode v label data (some ssm) none) = runLine h (.encode v label data (some ssm) (some (.num 0))) := rfl

/-- `sdi` cannot be given without `ssm` (R45). -/
theorem runLine_sdi_needs_ssm (h : HostState) (v : Var) (label data sdi : Operand) :
    runLine h (.encode v label data none (some sdi)) = .error .sdiWithoutSsm := rfl

end Sys2Proof.Machine
end

