-- ==== Sys2Proof/Laws/Step.lean ====
section
/-! SUPPORT. What a step can do. -/

namespace Sys2Proof.Machine

/-- A request is legal exactly when no operand is flagged (R42, R102). -/
theorem legal_iff_errMask (m : LabelMax) (inp : EncIn) : Legal m inp ↔ errMask m inp = 0 :=
  (errMask_eq_zero_iff m inp).symm

/-- ENCODE of legal operands leaves the word on the port and no error. -/
theorem exec_encode_legal {l : LabelPort} {d : DataPort} {x : SsmPort} {i : SdiPort} (s : State)
    (h : Legal Config.labelMax ⟨l, d, x, i⟩) : exec (.encode l d x i) s =
      .next { s with encIn := ⟨l, d, x, i⟩, encOut := ⟨encodeWord ⟨l, d, x, i⟩, 0⟩ } := by
  rw [exec_encode, encPorts_of_zero ((legal_iff_errMask _ _).1 h)]

/-- ENCODE of illegal operands leaves the all-zero word and the flags. -/
theorem exec_encode_illegal {l : LabelPort} {d : DataPort} {x : SsmPort} {i : SdiPort} (s : State)
    (h : ¬ Legal Config.labelMax ⟨l, d, x, i⟩) : exec (.encode l d x i) s =
      .next { s with encIn := ⟨l, d, x, i⟩, encOut := ⟨0, errMask Config.labelMax ⟨l, d, x, i⟩⟩ } := by
  rw [exec_encode, encPorts_of_ne_zero fun hz => h ((legal_iff_errMask _ _).2 hz)]

/-- Everything a step can do when it answers a next state: the request at the head of the list is an operation, it is
taken off, and the operation is performed. -/
theorem step_next {s t : State} (h : step s = .next t) :
    ∃ r rest i, s.pending = r :: rest ∧ decodeRequest r = .ok i ∧ exec i { s with pending := rest } = .next t := by
  unfold step at h
  split at h
  · rename_i i u hf
    obtain ⟨r, rest, hp, hd, rfl⟩ := fetch_next hf
    exact ⟨r, rest, i, hp, hd, h⟩
  · cases h
  · cases h

/-- An operation never touches the host's list. -/
theorem exec_pending {i : Instr} {s t : State} (h : exec i s = .next t) : t.pending = s.pending := by
  cases i with
  | encode l d m x => rw [exec_encode] at h; cases h; rfl
  | decode w => rw [exec_decode] at h; cases h; rfl

@[simp] theorem execAll_nil (s : State) : execAll [] s = .next s := rfl

theorem execAll_cons {i : Instr} {s t : State} (rest : List Instr) (h : exec i s = .next t) :
    execAll (i :: rest) s = execAll rest t := by
  simp [execAll, h]

end Sys2Proof.Machine
end

