-- ==== Sys2Proof/Tests/Slice0.lean ====
section
/-! SUPPORT. Tests, each by evaluation; expected values are those of spec/ (95_test_vectors.md and the worked examples), and
the witnesses that the hypotheses of the statements can be met. -/

namespace Sys2Proof.Tests

open Sys2Proof Sys2Proof.Machine

/-! ## Decoding and encoding: requests written out from R33 and R34 -/

/-- 95_test_vectors.md 2.2, row 1, bit by bit: label 8, data 1000, ssm 0, sdi 0. -/
theorem test_decode_encode_request :
    decodeTableWord 64 0b0000000000001000000000000000000000000011111010000000000000000000 = some (.encode 8 1000 0 0) := by
  decide

/-- Each of the four fields at its lowest and its highest bit. -/
theorem test_decode_field_edges :
    decodeTableWord 64 0x8001800000018181 = some (.encode 0x8001 0x80000001 0x81 0x81) := by decide

/-- 95_test_vectors.md 2.5, row 1, bit by bit. -/
theorem test_decode_decode_request :
    decodeTableWord 32 0b00010000000000000111110100000000 = some (.decode 0x10007D00) := by decide

theorem test_encode_request : encodeInstr (.encode 131 74565 1 2) = ⟨.enc, 0x0083000123450102⟩ := by decide

theorem test_decode_rejects_by_name :
    decodeRequest ⟨.dec, 2 ^ 32⟩ = .error .wordOutOfRange ∧ decodeRequest ⟨.enc, 2 ^ 64⟩ = .error .requestTooWide ∧
    decodeTableWord 72 0 = none := ⟨rfl, rfl, rfl⟩

/-! ## WellFormed: an ill-formed term for each check, and a well-formed one beside it -/

theorem test_wf_request : (⟨.dec, 2 ^ 32⟩ : Request).wf = false ∧ (⟨.enc, 2 ^ 64⟩ : Request).wf = false ∧
    (⟨.dec, 2 ^ 32 - 1⟩ : Request).wf = true ∧ (⟨.enc, 2 ^ 64 - 1⟩ : Request).wf = true := by decide

/-- R45: `ENCODE 65536, 0` and `ENCODE 0, 0, 256` are not operations; a numeral that does not fit `data`, `sdi` or `word`. -/
theorem test_wf_numerals :
    (Line.encode 0 (.num 65536) (.num 0) none none).wf = false ∧
    (Line.encode 0 (.num 0) (.num 0) (some (.num 256)) none).wf = false ∧
    (Line.encode 0 (.num 0) (.num (2 ^ 32)) none none).wf = false ∧
    (Line.encode 0 (.num 0) (.num 0) (some (.num 0)) (some (.num 256))).wf = false ∧
    (Line.decode 0 (.num (2 ^ 32))).wf = false ∧
    (Line.encode 0 (.num 65535) (.num 1000) (some (.num 255)) none).wf = true := by decide

/-- R45: `sdi` can be given only when `ssm` is. -/
theorem test_wf_sdi_needs_ssm : (Line.encode 0 (.num 0) (.num 0) none (some (.num 1))).wf = false := by decide

/-- R47: exclusive or is on 32-bit values. -/
theorem test_wf_host_numeral : (Line.host 0 (.xor (.atom (.num (2 ^ 32))) (.atom (.num 1)))).wf = false ∧
    (Line.host 0 (.atom (.num (2 ^ 32)))).wf = false ∧ (Line.host 0 (.atom (.num (2 ^ 32 - 1)))).wf = true := by decide

/-- A variable no line bound, `.word` of a DECODE result, `.label` of an ENCODE result, and `parity_valid` in an exclusive or. -/
theorem test_wf_program_scope :
    Program.wf [.decode 1 (.proj 0 .word)] = false ∧
    Program.wf [.decode 0 (.num 1), .decode 1 (.proj 0 .word)] = false ∧
    Program.wf [.encode 0 (.num 8) (.num 1000) none none, .host 1 (.atom (.proj 0 .label))] = false ∧
    Program.wf [.decode 0 (.num 1), .host 1 (.xor (.atom (.proj 0 .parityValid)) (.atom (.num 1)))] = false ∧
    Program.wf [.encode 0 (.num 8) (.num 1000) none none, .decode 1 (.proj 0 .word), .host 2 (.atom (.proj 1 .parityValid))] = true := by
  decide

/-! ## One step of each operation -/

/-- ENC's output ports after an operation from reset. -/
def encAfter (op : Instr) : Option EncOut :=
  match exec op State.reset with
  | .next t => some t.encOut
  | _ => none

/-- DEC's result after an operation from reset. -/
def decAfter (op : Instr) : Option DecodedWord :=
  match exec op State.reset with
  | .next t => some t.decOut.result
  | _ => none

/-- 95_test_vectors.md 2.2: among them one operand bit at a time, and fields side by side. -/
theorem test_encode_words :
    [encAfter (.encode 8 1000 0 0), encAfter (.encode 0 0 0 0), encAfter (.encode 255 524287 3 3), encAfter (.encode 1 0 0 0),
      encAfter (.encode 128 0 0 0), encAfter (.encode 0 1 0 0), encAfter (.encode 0 262144 0 0), encAfter (.encode 0 0 2 0),
      encAfter (.encode 0 0 0 1), encAfter (.encode 131 74565 1 2), encAfter (.encode 200 262143 2 0)] =
    [0x10007D00, 0x00000001, 0xFFFFFFFE, 0x80000000, 0x01000000, 0x00000020, 0x00800000, 0x00000010, 0x00000002,
      0xC12468AD, 0x137FFFF1].map fun w => some ⟨w, 0⟩ := by decide

/-- 95_test_vectors.md 2.3: the flags of illegal requests, `enc_word` 0 in every row. -/
theorem test_encode_errors :
    [encAfter (.encode 256 0 0 0), encAfter (.encode 0 524288 0 0), encAfter (.encode 0 0 4 0), encAfter (.encode 0 0 0 255),
      encAfter (.encode 0 2147483648 0 0), encAfter (.encode 0 524288 0 4), encAfter (.encode 256 0 4 0),
      encAfter (.encode 256 524288 4 4)] =
    [0b0001, 0b0010, 0b0100, 0b1000, 0b0010, 0b1010, 0b0101, 0b1111].map fun e => some ⟨0, e⟩ := by decide

/-- 95_test_vectors.md 2.5, rows with good parity. -/
theorem test_decode_valid_words :
    [decAfter (.decode 0x10007D00), decAfter (.decode 0x7FFFFFFF), decAfter (.decode 0x00000010), decAfter (.decode 0x00000002),
      decAfter (.decode 0xC12468AD), decAfter (.decode 0x12345678)] =
    [some ⟨8, 1000, 0, 0, 0, true⟩, some ⟨254, 524287, 3, 3, 1, true⟩, some ⟨0, 0, 2, 0, 0, true⟩, some ⟨0, 0, 0, 1, 0, true⟩,
      some ⟨131, 74565, 1, 2, 1, true⟩, some ⟨72, 107187, 3, 0, 0, true⟩] := by decide

/-- 95_test_vectors.md 2.5, rows with bad parity. -/
theorem test_decode_invalid_words :
    [decAfter (.decode 0), decAfter (.decode 0xFFFFFFFF), decAfter (.decode 0xDEADBEEF), decAfter (.decode 0xA5A5A5A5),
      decAfter (.decode 0xCAFEBABE)] =
    [some ⟨0, 0, 0, 0, 0, false⟩, some ⟨255, 524287, 3, 3, 1, false⟩, some ⟨123, 355831, 1, 3, 1, false⟩,
      some ⟨165, 339245, 0, 2, 1, false⟩, some ⟨83, 521685, 3, 3, 0, false⟩] := by decide

/-! ## The rest -/

/-- 95_test_vectors.md 2.1: a row and a column of the table. -/
theorem test_rev8 : [0x00#8, 0x01#8, 0x02#8, 0x08#8, 0x10#8, 0x53#8, 0x83#8, 0xC8#8, 0xF0#8].map rev8 =
    [0x00#8, 0x80#8, 0x40#8, 0x10#8, 0x08#8, 0xCA#8, 0xC1#8, 0x13#8, 0x0F#8] := by decide

/-- 95_test_vectors.md 2.4: LABEL_MAX = 2047. -/
theorem test_wide_label_max :
    encodeOp .wide ⟨300, 1000, 0, 0⟩ = .ok 0x34007D00 ∧ encodeOp .wide ⟨2047, 524287, 3, 3⟩ = .ok 0xFFFFFFFE ∧
    encodeOp .wide ⟨2048, 0, 0, 0⟩ = .invalidArgument .label := by decide

/-- 95_test_vectors.md 1.1 and 1.4 in the source's own form: the concrete scenario, and `sdi=-1`. -/
theorem test_source_form :
    sourceEncode .narrow 8 1000 0 0 = .ok 0x10007D00 ∧ sourceEncode .narrow 0 0 0 (-1) = .error .sdi ∧
    sourceDecode 0x10007D00 = .ok ⟨8, 1000, 0, 0, 0, true⟩ ∧ sourceDecode (2 ^ 32) = .error .word := ⟨rfl, rfl, rfl, rfl⟩

/-- 40_encoder.md R62 and 41_decoder.md R81: the named intermediate values of the worked example. -/
theorem test_traces :
    encTrace .narrow ⟨8, 1000, 0, 0⟩ = some ⟨0b00001000, 0b00010000, 0b0001000000000000011111010000000, 7, 0⟩ ∧
    decTrace 0x10007D00 = ⟨0b00010000, 7, 0⟩ := by decide

/-- A step takes its request off the list. -/
theorem test_step_takes_request :
    (match step (State.reset.withFetchWord 64 0x0008000003E80000) with
      | .next t => t.encOut == ⟨0x10007D00, 0⟩ && t.pending.isEmpty
      | _ => false) = true := by decide

/-- 95_test_vectors.md P3, line 2: a host step. -/
theorem test_host_step : runLine ⟨State.reset, [(0, .enc (.ok 0xFFFFFFFE))]⟩ (.host 1 (.xor (.atom (.proj 0 .word)) (.atom (.num 0x20)))) =
    .ok ⟨State.reset, [(1, .num 0xFFFFFFDE), (0, .enc (.ok 0xFFFFFFFE))]⟩ := by rfl

/-- 95_test_vectors.md P1, line 1: omitted operands are 0, and the whole result is bound. -/
theorem test_line_encode :
    (match runLine ⟨State.reset, []⟩ (.encode 0 (.num 0o010) (.num 1000) none none) with
      | .ok h => h.env == [(0, .enc (.ok 0x10007D00))]
      | .error _ => false) = true := by decide

/-- 95_test_vectors.md section 3, the ill-formed program: `.word` of an InvalidArgument. -/
theorem test_line_no_word : runLine ⟨State.reset, [(0, .enc (.invalidArgument .ssm))]⟩ (.decode 1 (.proj 0 .word)) =
    .error (.noWord 0) := by rfl

/-! ## Witnesses: the hypotheses of each statement can be met, each clause at a boundary of its range -/

/-- A legal request at the lowest and at the highest operands. -/
theorem legal_at_both_ends : Legal Config.labelMax ⟨0, 0, 0, 0⟩ ∧ Legal Config.labelMax ⟨255, 524287, 3, 3⟩ := by decide

/-- An illegal request for each operand, at the first value above its range. -/
theorem illegal_just_above : ¬ Legal Config.labelMax ⟨256, 0, 0, 0⟩ ∧ ¬ Legal Config.labelMax ⟨0, 524288, 0, 0⟩ ∧
    ¬ Legal Config.labelMax ⟨0, 0, 4, 0⟩ ∧ ¬ Legal Config.labelMax ⟨0, 0, 0, 4⟩ := by decide

theorem witness_StepPerformsThePresentedOperation :
    (State.reset.present ⟨.dec, 2 ^ 32 - 1⟩).pending = ⟨.dec, 2 ^ 32 - 1⟩ :: [] ∧
      decodeRequest ⟨.dec, 2 ^ 32 - 1⟩ = .ok (.decode 0xFFFFFFFF) := ⟨rfl, rfl⟩

theorem witness_RunEndsWhenNothingIsPending : State.reset.pending = [] := rfl

theorem witness_WordBeyond32BitsIsRefusedAndNeverTruncated :
    2 ^ 32 ≤ 2 ^ 32 ∧ (State.reset.present ⟨.dec, 2 ^ 32⟩).pending = ⟨.dec, 2 ^ 32⟩ :: [] ∧
      ((-1 : Int) < 0 ∨ 2 ^ 32 ≤ (-1 : Int)) ∧ ((2 ^ 32 : Int) < 0 ∨ 2 ^ 32 ≤ (2 ^ 32 : Int)) := by
  refine ⟨le_refl _, rfl, ?_, ?_⟩ <;> decide

theorem witness_EncodingInvertsDecoding : decodeRequest ⟨.dec, 0⟩ = .ok (.decode 0) := rfl

theorem witness_RequestIsAnOperationExactlyWhenItFits :
    (∃ op, decodeRequest ⟨.dec, 2 ^ 32 - 1⟩ = .ok op) ∧ ¬ (⟨.dec, 2 ^ 32⟩ : Request).wf = true := ⟨⟨_, rfl⟩, by decide⟩

theorem witness_TableRowIsPerformedByTheNextStep : decodeTableWord 64 0 = some (.encode 0 0 0 0) := by decide

theorem witness_LegalEncodePlacesEveryField : Legal Config.labelMax ⟨255, 524287, 3, 3⟩ := legal_at_both_ends.2

theorem witness_LegalEncodeWordValue : Legal Config.labelMax ⟨255, 524287, 3, 3⟩ := legal_at_both_ends.2

theorem witness_BodyLayoutAndValue : Legal Config.labelMax ⟨255, 524287, 3, 3⟩ := legal_at_both_ends.2

theorem witness_WordIsBodyThenParity : Legal Config.labelMax ⟨0, 0, 0, 0⟩ := legal_at_both_ends.1

theorem witness_LabelIsBitReversed : Legal Config.labelMax ⟨255, 0, 0, 0⟩ := by decide

theorem witness_EncodedWordHasOddOnes : Legal Config.labelMax ⟨0, 0, 0, 0⟩ := legal_at_both_ends.1

theorem witness_EncodedWordHasThirtyTwoDigits : Legal Config.labelMax ⟨0, 0, 0, 0⟩ := legal_at_both_ends.1

/-- For each clause two legal requests that differ in one operand only, and a bit at an end of its range. -/
theorem witness_EachOperandOwnsItsFieldBits :
    (Legal Config.labelMax ⟨0, 0, 0, 0⟩ ∧ Legal Config.labelMax ⟨255, 0, 0, 0⟩ ∧ 1 ≤ 23 ∧ 23 < 24) ∧
    (Legal Config.labelMax ⟨0, 524287, 0, 0⟩ ∧ ((1 ≤ 4 ∧ 4 < 5) ∨ 24 ≤ 4)) ∧
    (Legal Config.labelMax ⟨0, 0, 3, 0⟩ ∧ ((1 ≤ 5 ∧ 5 < 3) ∨ 5 ≤ 5)) ∧
    (Legal Config.labelMax ⟨0, 0, 0, 3⟩ ∧ 3 ≤ 3) := by decide

theorem witness_LabelCheckComparesTheWholePort : (256#16 ∈ [256#16, 2047#16, 2048#16]) ∧ (2048#16 ∈ [256#16, 2047#16, 2048#16]) := by
  decide

theorem witness_NamedFieldIsTheFirstOffender : (encPorts Config.labelMax ⟨0, 524288, 0, 4⟩).result = .invalidArgument .data := by
  decide

theorem witness_ErrorCarriesTheAllZeroWord : ¬ Legal Config.labelMax ⟨256, 0, 0, 0⟩ := illegal_just_above.1

theorem witness_IllegalEncodeIsRejected : ¬ Legal Config.labelMax ⟨0, 0, 0, 4⟩ ∧ 256 ≤ (256 : LabelPort).toNat :=
  ⟨illegal_just_above.2.2.2, by decide⟩

/-- Each code occurs. -/
theorem witness_ErrorCodesAndAllowedRanges :
    EncResult.code (encPorts Config.labelMax ⟨256, 0, 0, 0⟩).result = 1 ∧ EncResult.code (encPorts Config.labelMax ⟨0, 524288, 0, 0⟩).result = 2 ∧
    EncResult.code (encPorts Config.labelMax ⟨0, 0, 4, 0⟩).result = 3 ∧ EncResult.code (encPorts Config.labelMax ⟨0, 0, 0, 4⟩).result = 4 := by
  decide

theorem witness_FailedEncodeLeavesNoTrace : ¬ Legal Config.labelMax ⟨0, 524288, 0, 0⟩ := illegal_just_above.2.1

theorem witness_WideLabelMaxTruncatesSilently :
    (2047 : LabelPort).toNat ≤ 2047 ∧ encodeOp .wide ⟨2047, 0, 0, 0⟩ = .ok 0xFF000001 := by decide

theorem witness_RoundTripReturnsTheOperands :
    Legal Config.labelMax ⟨255, 524287, 3, 3⟩ ∧ encodeOp .wide ⟨255, 0, 0, 0⟩ = .ok 0xFF000001 ∧
      encodeOp .wide ⟨256, 0, 0, 0⟩ = .ok 0x00000001 := by decide

/-- Both verdicts occur (95_test_vectors.md 2.8). -/
theorem witness_ReencodingRepairsOnlyTheParityBit :
    (decPorts 0x12345678).parityValid = 1 ∧ (decPorts 0x00000000).parityValid = 0 := by decide

/-- The lowest and the highest bit, and both ends of every field's clause. -/
theorem witness_EverySingleBitFlipIsDetected : Legal Config.labelMax ⟨255, 524287, 3, 3⟩ ∧ 0 < 32 ∧ 31 < 32 ∧ 24 ≤ 24 ∧
    (5 ≤ 5 ∧ 5 < 24) ∧ (5 ≤ 23 ∧ 23 < 24) ∧ (3 ≤ 4 ∧ 4 < 5) ∧ (1 ≤ 2 ∧ 2 < 3) := by decide

theorem witness_ParityCatchesExactlyOddErrorPatterns :
    popcount (0x00000001 : ArincWord) % 2 = 1 ∧ popcount (0xFFFFFFFF : ArincWord) % 2 = 0 := by decide

theorem witness_EncodeIsABijectionOntoTheValidWords : encodeOp Config.labelMax ⟨0, 0, 0, 0⟩ = .ok 0x00000001 := by decide

theorem witness_PortsCarryTheResultValues : (encPorts Config.labelMax ⟨256, 524288, 4, 4⟩).result = .invalidArgument .label := by
  decide

theorem witness_TracesAgreeWithTheResults : encTrace .narrow ⟨0, 0, 0, 0⟩ = some ⟨0, 0, 0, 0, 1⟩ := by decide

/-- Each clause at the first value outside its range, and the last at the ends of the ranges. -/
theorem witness_SignedOperandsOutOfRangeAreRejected :
    ((-1 : Int) < 0 ∨ (LabelMax.narrow.value : Int) < -1) ∧ ((256 : Int) < 0 ∨ (LabelMax.narrow.value : Int) < 256) ∧
    ((255 : Int) ≤ (LabelMax.narrow.value : Int) ∧ ((524288 : Int) < 0 ∨ (524287 : Int) < 524288)) ∧
    ((524287 : Int) ≤ 524287 ∧ ((4 : Int) < 0 ∨ (3 : Int) < 4)) ∧ ((3 : Int) ≤ 3 ∧ ((-1 : Int) < 0 ∨ (3 : Int) < -1)) := by decide

theorem witness_EveryOperationIsIdempotent :
    exec (.decode 0x00000001) State.reset = .next (State.reset.returnFields 0x00000001 ⟨0, 0, 0, 0, 1, 1⟩) := rfl

theorem witness_EveryStepKeepsThePortsInAgreement :
    PortsAgree (State.reset.present ⟨.dec, 1⟩) ∧
      step (State.reset.present ⟨.dec, 1⟩) = .next (State.reset.returnFields 0x00000001 ⟨0, 0, 0, 0, 1, 1⟩) :=
  ⟨by decide, rfl⟩

theorem witness_EachStepMakesExactlyOneRequest :
    step (State.reset.present ⟨.dec, 1⟩) = .next (State.reset.returnFields 0x00000001 ⟨0, 0, 0, 0, 1, 1⟩) := rfl

theorem witness_EveryListOfOperationsRunsToItsEnd :
    PendingWf { State.reset with pending := [⟨.dec, 2 ^ 32 - 1⟩, ⟨.enc, 2 ^ 64 - 1⟩] } := by decide

end Sys2Proof.Tests
end

section
/-! The values that the ports carry (10_state.md R17). -/

namespace Sys2Proof.Machine

/-- The named field is the operand of the lowest-numbered set bit of `enc_err` (R107), whose index is one less than the
field's code (R101). -/
theorem lowest_set_bit_of_offender {err : EncErr} {f : ErrField} (h : offender err = some f) :
    err.getLsbD (ErrField.code f - 1) = true ∧ ∀ k, k < ErrField.code f - 1 → err.getLsbD k = false := by
  unfold offender at h
  split_ifs at h with h0 h1 h2 h3 <;> cases h
  · exact ⟨h0, fun k hk => absurd hk k.not_lt_zero⟩
  · rw [Bool.not_eq_true] at h0
    exact ⟨h1, fun | 0, _ => h0⟩
  · rw [Bool.not_eq_true] at h0 h1
    exact ⟨h2, fun | 0, _ => h0 | 1, _ => h1⟩
  · rw [Bool.not_eq_true] at h0 h1 h2
    exact ⟨h3, fun | 0, _ => h0 | 1, _ => h1 | 2, _ => h2⟩

/-- No flag names WORD, which has no port (60_exceptions.md R104). -/
theorem offender_ne_word (err : EncErr) : offender err ≠ some .word := by
  revert err; decide

namespace EncOut

theorem result_of_offender_none {out : EncOut} (h : offender out.err = none) : out.result = .ok out.word := by
  simp [EncOut.result, h]

theorem result_of_offender_some {out : EncOut} {f : ErrField} (h : offender out.err = some f) :
    out.result = .invalidArgument f := by
  simp [EncOut.result, h]

theorem result_eq_ok_iff (out : EncOut) (w : ArincWord) : out.result = .ok w ↔ out.err = 0 ∧ out.word = w := by
  rw [← offender_eq_none_iff]
  cases h : offender out.err with
  | none => simp [result_of_offender_none h]
  | some f => simp [result_of_offender_some h]

theorem result_eq_invalidArgument_iff (out : EncOut) (f : ErrField) :
    out.result = .invalidArgument f ↔ offender out.err = some f := by
  cases h : offender out.err with
  | none => simp [result_of_offender_none h]
  | some g => simp [result_of_offender_some h]

end EncOut

@[simp] theorem encPorts_err (m : LabelMax) (inp : EncIn) : (encPorts m inp).err = errMask m inp := by
  unfold encPorts
  split <;> rfl

theorem encPorts_word_of_ne_zero {m : LabelMax} {inp : EncIn} (h : (encPorts m inp).err ≠ 0) :
    (encPorts m inp).word = 0 := by
  rw [encPorts_err] at h
  rw [encPorts_of_ne_zero h]

/-- Reading ENC's output ports gives back the result of R50. -/
@[simp] theorem encPorts_result (m : LabelMax) (inp : EncIn) : (encPorts m inp).result = encodeOp m inp := by
  by_cases h : errMask m inp = 0
  · rw [encodeOp_of_zero h, EncOut.result_eq_ok_iff, encPorts_of_zero h]
    exact ⟨rfl, rfl⟩
  · obtain ⟨f, hf, hop⟩ := encodeOp_of_ne_zero h
    rw [hop, EncOut.result_eq_invalidArgument_iff, encPorts_err, hf]

/-- An InvalidArgument on ENC's output ports (R17, R109). -/
theorem encPorts_invalidArgument {m : LabelMax} {inp : EncIn} {f : ErrField}
    (h : (encPorts m inp).result = .invalidArgument f) :
    (encPorts m inp).err ≠ 0 ∧ (encPorts m inp).word = 0 ∧ f ≠ .word := by
  have hoff := (EncOut.result_eq_invalidArgument_iff _ f).1 h
  have herr : (encPorts m inp).err ≠ 0 := fun hz => by
    rw [(offender_eq_none_iff _).2 hz] at hoff
    cases hoff
  exact ⟨herr, encPorts_word_of_ne_zero herr, fun hf => offender_ne_word _ (hf ▸ hoff)⟩

/-- The one-bit port shows 1 exactly for the verdict `true` (R16, R78). -/
theorem decPorts_parityValid_eq_one_iff (w : ArincWord) :
    (decPorts w).parityValid = 1 ↔ (decodeOp w).parityValid = true := by
  rw [decPorts_parityValid, show (decodeOp w).parityValid = parityValid w from rfl]
  cases parityValid w <;> decide

/-- Settles O39: each unit's output ports are those of its rule, and reading them back gives the unit's result. -/
theorem portsCarryTheResultValues : Obligations.PortsCarryTheResultValues := by
  refine ⟨fun l d m i s => ⟨_, exec_encode l d m i s, encPorts_result _ _, EncOut.result_eq_ok_iff _, fun f hf => ?_⟩,
    fun w s => ⟨_, exec_decode w s, rfl, rfl, rfl, rfl, rfl, decPorts_parityValid_eq_one_iff w⟩⟩
  obtain ⟨herr, hword, hfield⟩ := encPorts_invalidArgument hf
  exact ⟨herr, hword, hfield, lowest_set_bit_of_offender ((EncOut.result_eq_invalidArgument_iff _ f).1 hf)⟩

end Sys2Proof.Machine
end

section
/-! The layout of ENC_REQ (30_encoding.md R33). -/

namespace Sys2Proof

/-- As a number, a concatenation is its left part moved up by the width of its right part, plus its right part. -/
theorem toNat_append_eq_add {w u : Nat} (a : BitVec w) (b : BitVec u) :
    (a ++ b).toNat = a.toNat * 2 ^ u + b.toNat := by
  rw [BitVec.toNat_append, ← Nat.shiftLeft_add_eq_or_of_lt b.isLt, Nat.shiftLeft_eq]

section Slices

variable (l : LabelPort) (d : DataPort) (m : SsmPort) (i : SdiPort)

/-- ENC_REQ as a number: each operand times the weight of its lowest bit. -/
theorem encReq_toNat :
    (encReq l d m i).toNat = l.toNat * 2 ^ 48 + d.toNat * 2 ^ 16 + m.toNat * 2 ^ 8 + i.toNat := by
  calc (encReq l d m i).toNat
      = (l ++ d ++ m).toNat * 2 ^ 8 + i.toNat := toNat_append_eq_add _ _
    _ = ((l.toNat * 2 ^ 32 + d.toNat) * 2 ^ 8 + m.toNat) * 2 ^ 8 + i.toNat := by
      rw [toNat_append_eq_add, toNat_append_eq_add]
    _ = l.toNat * 2 ^ 48 + d.toNat * 2 ^ 16 + m.toNat * 2 ^ 8 + i.toNat := by omega

theorem encReq_label : (encReq l d m i).extractLsb' 48 16 = l := by
  calc (encReq l d m i).extractLsb' 48 16
      = (l ++ d ++ m).extractLsb' 40 16 := BitVec.extractLsb'_append_eq_of_le (by decide)
    _ = (l ++ d).extractLsb' 32 16 := BitVec.extractLsb'_append_eq_of_le (by decide)
    _ = l := BitVec.extractLsb'_append_eq_left

theorem encReq_data : (encReq l d m i).extractLsb' 16 32 = d := by
  calc (encReq l d m i).extractLsb' 16 32
      = (l ++ d ++ m).extractLsb' 8 32 := BitVec.extractLsb'_append_eq_of_le (by decide)
    _ = (l ++ d).extractLsb' 0 32 := BitVec.extractLsb'_append_eq_of_le (by decide)
    _ = d := BitVec.extractLsb'_append_eq_right

theorem encReq_ssm : (encReq l d m i).extractLsb' 8 8 = m := by
  calc (encReq l d m i).extractLsb' 8 8
      = (l ++ d ++ m).extractLsb' 0 8 := BitVec.extractLsb'_append_eq_of_le (by decide)
    _ = m := BitVec.extractLsb'_append_eq_right

theorem encReq_sdi : (encReq l d m i).extractLsb' 0 8 = i :=
  BitVec.extractLsb'_append_eq_right

end Slices

/-- Settles O7: the number of a request adds up its operands' weights, and each slice is the part concatenated there. -/
theorem requestVectorLayout : Obligations.RequestVectorLayout := fun l d m i =>
  ⟨congrArg (Request.mk .enc) (encReq_toNat l d m i), encReq_label l d m i, encReq_data l d m i, encReq_ssm l d m i,
    encReq_sdi l d m i⟩

end Sys2Proof
end

section
/-! The layout of the word that ENCODE builds (30_encoding.md R30, R32). -/

namespace Sys2Proof.Machine

section Fields

variable (inp : EncIn) {k : Nat}

/-- The label lands in bits 31 to 24 in reverse (R32). -/
theorem getLsbD_encodeWord_label (hk : k < 8) : (encodeWord inp).getLsbD (31 - k) = inp.label.getLsbD k := by
  have hback : 31 - (31 - k) = k := by omega
  rw [getLsbD_encodeWord, if_neg (by omega), if_neg (by omega), if_neg (by omega), if_neg (by omega),
    if_pos (by omega), hback]

/-- R32's equivalent form, from the lowest bit of the field up. -/
theorem getLsbD_encodeWord_label_low (hk : k < 8) :
    (encodeWord inp).getLsbD (24 + k) = inp.label.getLsbD (7 - k) := by
  have hpos : 24 + k = 31 - (7 - k) := by omega
  rw [hpos, getLsbD_encodeWord_label inp (by omega)]

theorem getLsbD_encodeWord_data (hk : k < 19) : (encodeWord inp).getLsbD (5 + k) = inp.data.getLsbD k := by
  rw [getLsbD_encodeWord, if_neg (by omega), if_neg (by omega), if_neg (by omega), if_pos (by omega),
    Nat.add_sub_cancel_left]

theorem getLsbD_encodeWord_ssm (hk : k < 2) : (encodeWord inp).getLsbD (3 + k) = inp.ssm.getLsbD k := by
  rw [getLsbD_encodeWord, if_neg (by omega), if_neg (by omega), if_pos (by omega), Nat.add_sub_cancel_left]

theorem getLsbD_encodeWord_sdi (hk : k < 2) : (encodeWord inp).getLsbD (1 + k) = inp.sdi.getLsbD k := by
  rw [getLsbD_encodeWord, if_neg (by omega), if_pos (by omega), Nat.add_sub_cancel_left]

/-- `word[31:1]` is the body (R58). -/
@[simp] theorem wordBody_encodeWord : wordBody (encodeWord inp) = bodyOf inp :=
  BitVec.extractLsb'_append_eq_left

/-- The lowest bit makes the count of the whole word odd (R30, R57). -/
theorem getLsbD_encodeWord_zero : (encodeWord inp).getLsbD 0 = true ↔ popcount (wordBody (encodeWord inp)) % 2 = 0 := by
  rw [wordBody_encodeWord, getLsbD_encodeWord, if_pos rfl, decide_eq_true_iff]

@[simp] theorem wordData_encodeWord : wordData (encodeWord inp) = inp.data.extractLsb' 0 19 :=
  BitVec.eq_of_getLsbD_eq fun k hk => by
    rw [getLsbD_wordData, getLsbD_encodeWord_data inp hk, BitVec.getLsbD_extractLsb', Nat.zero_add]

@[simp] theorem wordSsm_encodeWord : wordSsm (encodeWord inp) = inp.ssm.extractLsb' 0 2 :=
  BitVec.eq_of_getLsbD_eq fun k hk => by
    rw [getLsbD_wordSsm, getLsbD_encodeWord_ssm inp hk, BitVec.getLsbD_extractLsb', Nat.zero_add]

@[simp] theorem wordSdi_encodeWord : wordSdi (encodeWord inp) = inp.sdi.extractLsb' 0 2 :=
  BitVec.eq_of_getLsbD_eq fun k hk => by
    rw [getLsbD_wordSdi, getLsbD_encodeWord_sdi inp hk, BitVec.getLsbD_extractLsb', Nat.zero_add]

end Fields

/-- Settles O10: ENCODE of legal operands leaves `encodeWord` on the port, whose bits are known field by field. -/
theorem legalEncodePlacesEveryField : Obligations.LegalEncodePlacesEveryField := fun _ _ _ _ s h =>
  ⟨_, exec_encode_legal s h, rfl, fun _ => getLsbD_encodeWord_label _, fun _ => getLsbD_encodeWord_data _,
    fun _ => getLsbD_encodeWord_ssm _, fun _ => getLsbD_encodeWord_sdi _, getLsbD_encodeWord_zero _⟩

/-- Reversal is an involution (R32). -/
@[simp] theorem rev8_rev8 (v : BitVec 8) : rev8 (rev8 v) = v := by
  apply BitVec.eq_of_getLsbD_eq
  intro k hk
  have hback : 7 - (7 - k) = k := by omega
  have hlow : 7 - k < 8 := by omega
  simp only [getLsbD_rev8, hback, hk, hlow, decide_true, Bool.true_and]

/-- A reversed byte is the byte itself exactly when its four high bits mirror its four low ones. -/
theorem rev8_eq_self_iff (v : BitVec 8) : rev8 v = v ↔ ∀ k, k < 4 → v.getLsbD (7 - k) = v.getLsbD k := by
  constructor
  · intro h k hk
    conv_rhs => rw [← h]
    simp only [getLsbD_rev8, show k < 8 by omega, decide_true, Bool.true_and]
  · intro h
    apply BitVec.eq_of_getLsbD_eq
    intro k hk
    rw [getLsbD_rev8, decide_eq_true hk, Bool.true_and]
    by_cases hlow : k < 4
    · exact h k hlow
    · have hback : 7 - (7 - k) = k := by omega
      rw [← h (7 - k) (by omega), hback]

/-- The mirrored bytes, one for each value of the four low bits (R32's list): a check of all 256 bytes. -/
theorem rev8_fixed_iff_mem (v : BitVec 8) : rev8 v = v ↔
    v ∈ [0x00#8, 0x18#8, 0x24#8, 0x3C#8, 0x42#8, 0x5A#8, 0x66#8, 0x7E#8, 0x81#8, 0x99#8, 0xA5#8, 0xBD#8, 0xC3#8, 0xDB#8,
      0xE7#8, 0xFF#8] := by
  rw [rev8_eq_self_iff]
  revert v
  decide

/-- Settles O15: only the label's bits are placed in reverse, and reversing a byte twice gives it back. -/
theorem labelIsBitReversed : Obligations.LabelIsBitReversed := by
  refine ⟨fun l d m i s h => ⟨_, exec_encode_legal s h, fun k hk => ?_, wordData_encodeWord _, wordSsm_encodeWord _,
    wordSdi_encodeWord _⟩, rev8_rev8, rev8_fixed_iff_mem⟩
  exact ⟨getLsbD_encodeWord_label _ hk, getLsbD_encodeWord_label_low _ hk⟩

end Sys2Proof.Machine
end

section
/-! The body, the parity bit and the word as numbers (40_encoder.md R56 to R58). -/

namespace Sys2Proof.Machine

section Body

variable (inp : EncIn)

theorem bodyOf_label : (bodyOf inp).extractLsb' 23 8 = labelRev inp.label := by
  calc (bodyOf inp).extractLsb' 23 8
      = (labelRev inp.label ++ inp.data.extractLsb' 0 19 ++ inp.ssm.extractLsb' 0 2).extractLsb' 21 8 :=
        BitVec.extractLsb'_append_eq_of_le (by decide)
    _ = (labelRev inp.label ++ inp.data.extractLsb' 0 19).extractLsb' 19 8 :=
        BitVec.extractLsb'_append_eq_of_le (by decide)
    _ = labelRev inp.label := BitVec.extractLsb'_append_eq_left

theorem bodyOf_data : (bodyOf inp).extractLsb' 4 19 = inp.data.extractLsb' 0 19 := by
  calc (bodyOf inp).extractLsb' 4 19
      = (labelRev inp.label ++ inp.data.extractLsb' 0 19 ++ inp.ssm.extractLsb' 0 2).extractLsb' 2 19 :=
        BitVec.extractLsb'_append_eq_of_le (by decide)
    _ = (labelRev inp.label ++ inp.data.extractLsb' 0 19).extractLsb' 0 19 :=
        BitVec.extractLsb'_append_eq_of_le (by decide)
    _ = inp.data.extractLsb' 0 19 := BitVec.extractLsb'_append_eq_right

theorem bodyOf_ssm : (bodyOf inp).extractLsb' 2 2 = inp.ssm.extractLsb' 0 2 := by
  calc (bodyOf inp).extractLsb' 2 2
      = (labelRev inp.label ++ inp.data.extractLsb' 0 19 ++ inp.ssm.extractLsb' 0 2).extractLsb' 0 2 :=
        BitVec.extractLsb'_append_eq_of_le (by decide)
    _ = inp.ssm.extractLsb' 0 2 := BitVec.extractLsb'_append_eq_right

theorem bodyOf_sdi : (bodyOf inp).extractLsb' 0 2 = inp.sdi.extractLsb' 0 2 :=
  BitVec.extractLsb'_append_eq_right

/-- The low bits of an operand are its value modulo the size of its field. -/
theorem toNat_extractLsb'_zero {w : Nat} (x : BitVec w) (n : Nat) :
    (x.extractLsb' 0 n).toNat = x.toNat % 2 ^ n := by
  rw [BitVec.extractLsb'_toNat, Nat.shiftRight_zero]

/-- The body as a number: each field, cut to its width, times the weight of its lowest bit. -/
theorem bodyOf_toNat : (bodyOf inp).toNat = (labelRev inp.label).toNat * 2 ^ 23
    + inp.data.toNat % 2 ^ 19 * 16 + inp.ssm.toNat % 2 ^ 2 * 4 + inp.sdi.toNat % 2 ^ 2 := by
  calc (bodyOf inp).toNat
      = (((labelRev inp.label).toNat * 2 ^ 19 + (inp.data.extractLsb' 0 19).toNat) * 2 ^ 2
          + (inp.ssm.extractLsb' 0 2).toNat) * 2 ^ 2 + (inp.sdi.extractLsb' 0 2).toNat := by
        rw [← toNat_append_eq_add, ← toNat_append_eq_add, ← toNat_append_eq_add]
        rfl
    _ = (labelRev inp.label).toNat * 2 ^ 23 + inp.data.toNat % 2 ^ 19 * 16 + inp.ssm.toNat % 2 ^ 2 * 4
          + inp.sdi.toNat % 2 ^ 2 := by
        rw [toNat_extractLsb'_zero, toNat_extractLsb'_zero, toNat_extractLsb'_zero]
        omega

/-- Nothing is cut off from legal operands (R59). -/
theorem bodyOf_toNat_of_legal {m : LabelMax} {inp : EncIn} (h : Legal m inp) : (bodyOf inp).toNat =
    (labelRev inp.label).toNat * 2 ^ 23 + inp.data.toNat * 16 + inp.ssm.toNat * 4 + inp.sdi.toNat := by
  obtain ⟨-, hdata, hssm, hsdi⟩ := h
  rw [bodyOf_toNat, Nat.mod_eq_of_lt (a := inp.data.toNat) (by omega),
    Nat.mod_eq_of_lt (a := inp.ssm.toNat) (by omega), Nat.mod_eq_of_lt (a := inp.sdi.toNat) (by omega)]

end Body

/-- Settles O12: each slice is the part concatenated there, and the parts' weights add up to the number. -/
theorem bodyLayoutAndValue : Obligations.BodyLayoutAndValue := fun _ _ _ _ =>
  ⟨bodyOf_label _, bodyOf_data _, bodyOf_ssm _, bodyOf_sdi _, bodyOf_toNat_of_legal⟩

/-- A count of ones as a sum over the bit positions. -/
theorem onesBelow_eq_sum {w : Nat} (v : BitVec w) (n : Nat) :
    onesBelow v n = ∑ k ∈ Finset.range n, (v.getLsbD k).toNat := by
  induction n with
  | zero => rfl
  | succ n ih => rw [onesBelow_succ, ih, Finset.sum_range_succ]

/-- Reversal only reorders the sum (R57). -/
@[simp] theorem popcount_rev8 (v : BitVec 8) : popcount (rev8 v) = popcount v := by
  have hbit : ∀ k ∈ Finset.range 8, ((rev8 v).getLsbD k).toNat = (v.getLsbD (8 - 1 - k)).toNat := fun k hk => by
    rw [getLsbD_rev8, decide_eq_true (Finset.mem_range.1 hk), Bool.true_and]
  calc popcount (rev8 v)
      = ∑ k ∈ Finset.range 8, ((rev8 v).getLsbD k).toNat := onesBelow_eq_sum _ _
    _ = ∑ k ∈ Finset.range 8, (v.getLsbD (8 - 1 - k)).toNat := Finset.sum_congr rfl hbit
    _ = ∑ k ∈ Finset.range 8, (v.getLsbD k).toNat := Finset.sum_range_reflect (fun k => (v.getLsbD k).toNat) 8
    _ = popcount v := (onesBelow_eq_sum _ _).symm

section Parity

variable (body : Body)

theorem parityBit_eq_one_iff : parityBit body = 1 ↔ popcount body % 2 = 0 := by
  unfold parityBit
  split_ifs with heven
  · simp [heven]
  · simp [heven]

theorem parityBit_eq_zero_iff : parityBit body = 0 ↔ popcount body % 2 = 1 := by
  unfold parityBit
  split_ifs with heven
  · simp [heven]
  · simp [Nat.mod_two_ne_zero.1 heven]

/-- The parity generator is an exclusive nor. -/
theorem parityBit_eq_not_xorr : parityBit body = BitVec.ofBool (!xorr body) := by
  rw [show xorr body = decide (popcount body % 2 = 1) from xorBelow_eq body 31]
  rcases Nat.mod_two_eq_zero_or_one (popcount body) with h | h
  · rw [(parityBit_eq_one_iff body).2 h, h]
    rfl
  · rw [(parityBit_eq_zero_iff body).2 h, h]
    rfl

end Parity

/-- Settles O13: the parity bit is read off the count, and the fields' counts add up, reversal keeping the label's. -/
theorem parityBitIsOddParityOverTheBody : Obligations.ParityBitIsOddParityOverTheBody := fun inp => by
  refine ⟨popcount_le _, parityBit_eq_one_iff _, parityBit_eq_zero_iff _, parityBit_eq_not_xorr _, ?_⟩
  rw [popcount_bodyOf, labelRev, popcount_rev8]

section Word

variable (inp : EncIn)

/-- `word[0]` is the parity bit (R58). -/
@[simp] theorem wordParity_encodeWord : wordParity (encodeWord inp) = parityBit (bodyOf inp) :=
  BitVec.extractLsb'_append_eq_right

theorem encodeWord_toNat :
    (encodeWord inp).toNat = 2 * (bodyOf inp).toNat + (parityBit (bodyOf inp)).toNat := by
  calc (encodeWord inp).toNat
      = (bodyOf inp).toNat * 2 ^ 1 + (parityBit (bodyOf inp)).toNat := toNat_append_eq_add _ _
    _ = 2 * (bodyOf inp).toNat + (parityBit (bodyOf inp)).toNat := by omega

/-- The parity bit makes the count of ones of the whole word odd (R57). -/
theorem popcount_encodeWord_odd : popcount (encodeWord inp) % 2 = 1 := by
  rw [popcount_encodeWord]
  rcases Nat.mod_two_eq_zero_or_one (popcount (bodyOf inp)) with h | h
  · rw [(parityBit_eq_one_iff _).2 h, show popcount (1 : BitVec 1) = 1 from rfl]
    omega
  · rw [(parityBit_eq_zero_iff _).2 h, show popcount (0 : BitVec 1) = 0 from rfl]
    omega

/-- The words of no ones and of 32 ones, both even, are never built. -/
theorem encodeWord_toNat_bounds :
    0x00000001 ≤ (encodeWord inp).toNat ∧ (encodeWord inp).toNat ≤ 0xFFFFFFFE := by
  have hne : ∀ w : ArincWord, popcount w % 2 = 0 → (encodeWord inp).toNat ≠ w.toNat := fun w hw heq => by
    have hodd := popcount_encodeWord_odd inp
    rw [BitVec.eq_of_toNat_eq heq, hw] at hodd
    cases hodd
  have hzero : (encodeWord inp).toNat ≠ 0 := hne 0x00000000 rfl
  have hones : (encodeWord inp).toNat ≠ 0xFFFFFFFF := hne 0xFFFFFFFF rfl
  have hlt := (encodeWord inp).isLt
  omega

end Word

/-- Settles O14: the word is a concatenation, so its slices and its number are known; the two extremes are computed. -/
theorem wordIsBodyThenParity : Obligations.WordIsBodyThenParity := by
  refine ⟨fun l d m i s h => ⟨_, exec_encode_legal s h, wordBody_encodeWord _, wordParity_encodeWord _,
    encodeWord_toNat _, encodeWord_toNat_bounds _⟩, fun s => ⟨_, exec_encode _ _ _ _ s, ?_⟩,
    fun s => ⟨_, exec_encode _ _ _ _ s, ?_⟩⟩
  · show encPorts Config.labelMax ⟨0, 0, 0, 0⟩ = ⟨0x00000001, 0⟩
    decide
  · show encPorts Config.labelMax ⟨255, 524287, 3, 3⟩ = ⟨0xFFFFFFFE, 0⟩
    decide

end Sys2Proof.Machine
end

section
/-! The range checks of ENCODE, as comparisons and as the OR of the bits above a field (40_encoder.md R52 to R54). -/

namespace Sys2Proof.Machine

/-- A value exceeds the maximum of an `n`-bit field exactly when one of its bits from bit `n` up is set. -/
theorem max_lt_toNat_iff_exists_high_bit {w n max : Nat} (x : BitVec w) (hmax : max + 1 = 2 ^ n) :
    max < x.toNat ↔ ∃ k, n ≤ k ∧ k < w ∧ x.getLsbD k = true := by
  rw [← Nat.succ_le_iff, Nat.succ_eq_add_one, hmax]
  constructor
  · intro h
    obtain ⟨k, hk, hbit⟩ := Nat.exists_ge_and_testBit_of_ge_two_pow h
    exact ⟨k, hk, BitVec.lt_of_getLsbD hbit, hbit⟩
  · rintro ⟨k, hk, -, hbit⟩
    calc 2 ^ n ≤ 2 ^ k := Nat.pow_le_pow_right (by decide) hk
      _ ≤ x.toNat := Nat.ge_two_pow_of_testBit hbit

section Flags

variable (lm : LabelMax) (inp : EncIn)

theorem errMask_label_iff : (errMask lm inp).getLsbD 0 = true ↔ lm.value < inp.label.toNat := by
  rw [(getLsbD_errMask lm inp).1, badLabel, decide_eq_true_iff]

theorem errMask_data_iff : (errMask lm inp).getLsbD 1 = true ↔ 524287 < inp.data.toNat := by
  rw [(getLsbD_errMask lm inp).2.1, badData, decide_eq_true_iff]

theorem errMask_ssm_iff : (errMask lm inp).getLsbD 2 = true ↔ 3 < inp.ssm.toNat := by
  rw [(getLsbD_errMask lm inp).2.2.1, badSsm, decide_eq_true_iff]

theorem errMask_sdi_iff : (errMask lm inp).getLsbD 3 = true ↔ 3 < inp.sdi.toNat := by
  rw [(getLsbD_errMask lm inp).2.2.2, badSdi, decide_eq_true_iff]

end Flags

/-- ENCODE answers a next state with the four checks on `enc_err`, whatever its operands (R51, R102). -/
theorem exec_encode_err (l : LabelPort) (d : DataPort) (m : SsmPort) (i : SdiPort) (s : State) :
    ∃ t, exec (.encode l d m i) s = .next t ∧ t.encOut.err = errMask Config.labelMax ⟨l, d, m, i⟩ :=
  ⟨_, exec_encode l d m i s, encPorts_err _ _⟩

/-- Settles O19: bit 0 of `enc_err` is the comparison with 255, and 255 is the maximum of 8 bits. -/
theorem labelCheckComparesTheWholePort : Obligations.LabelCheckComparesTheWholePort := by
  have hrefused : ∀ l ∈ [256#16, 2047#16, 2048#16], 255 < l.toNat := by simp
  refine ⟨fun l d m i s => ?_, fun l d m i s hl => ?_⟩
  · obtain ⟨t, hexec, herr⟩ := exec_encode_err l d m i s
    refine ⟨t, hexec, ?_⟩
    rw [herr, errMask_label_iff]
    exact ⟨Iff.rfl, max_lt_toNat_iff_exists_high_bit l rfl⟩
  · obtain ⟨t, hexec, herr⟩ := exec_encode_err l d m i s
    refine ⟨t, hexec, ?_⟩
    rw [herr, errMask_label_iff]
    exact hrefused l hl

/-- Settles O20: bits 1 to 3 of `enc_err` are comparisons with the maxima of 19, 2 and 2 bits. -/
theorem dataSsmSdiChecksCompareTheWholePorts : Obligations.DataSsmSdiChecksCompareTheWholePorts := by
  refine ⟨fun l d m i s => ?_, fun l d m s => ?_⟩
  · obtain ⟨t, hexec, herr⟩ := exec_encode_err l d m i s
    refine ⟨t, hexec, ?_⟩
    rw [herr, errMask_data_iff, errMask_ssm_iff, errMask_sdi_iff]
    exact ⟨Iff.rfl, max_lt_toNat_iff_exists_high_bit d rfl, Iff.rfl, max_lt_toNat_iff_exists_high_bit m rfl, Iff.rfl,
      max_lt_toNat_iff_exists_high_bit i rfl⟩
  · obtain ⟨t, hexec, herr⟩ := exec_encode_err l d m 0xFF s
    refine ⟨t, hexec, ?_⟩
    rw [herr, errMask_sdi_iff]
    exact (by decide : 3 < (0xFF : SdiPort).toNat)

end Sys2Proof.Machine
end

section
/-! What LABEL_MAX = 2047 would do (40_encoder.md R54). -/

namespace Sys2Proof.Machine

/-- ENCODE gives a word exactly for legal operands, and it is the word of steps 1 to 5 (R50). -/
theorem encodeOp_eq_ok_iff {lm : LabelMax} {inp : EncIn} {w : ArincWord} :
    encodeOp lm inp = .ok w ↔ Legal lm inp ∧ encodeWord inp = w := by
  rw [← encPorts_result, EncOut.result_eq_ok_iff, encPorts_err, ← legal_iff_errMask]
  refine and_congr_right fun h => ?_
  rw [encPorts_of_zero ((legal_iff_errMask _ _).1 h)]

/-- The label field of the word holds the reversed label (R32). -/
@[simp] theorem wordLabelRev_encodeWord (inp : EncIn) : wordLabelRev (encodeWord inp) = labelRev inp.label := by
  rw [← bodyOf_label, ← wordBody_encodeWord]
  exact BitVec.eq_of_getLsbD_eq fun k hk => by
    rw [getLsbD_wordLabelRev, BitVec.getLsbD_extractLsb', getLsbD_wordBody, decide_eq_true (show 23 + k < 31 by omega),
      Bool.true_and, ← Nat.add_assoc]

/-- DECODE of an encoded word returns the low byte of the label. -/
theorem decodeOp_encodeWord_label (inp : EncIn) :
    (decodeOp (encodeWord inp)).label.toNat = inp.label.toNat % 256 := by
  calc (decodeOp (encodeWord inp)).label.toNat
      = ((rev8 (wordLabelRev (encodeWord inp))).setWidth 16).toNat := rfl
    _ = ((labelBin inp.label).setWidth 16).toNat := by rw [wordLabelRev_encodeWord, labelRev, rev8_rev8]
    _ = (labelBin inp.label).toNat := BitVec.toNat_setWidth_of_le (by decide)
    _ = inp.label.toNat % 256 := toNat_extractLsb'_zero inp.label 8

/-- The label taken modulo 256, as a port value. -/
theorem toNat_label_mod (l : LabelPort) : (BitVec.ofNat 16 (l.toNat % 256)).toNat = l.toNat % 256 := by
  rw [BitVec.toNat_ofNat]
  omega

/-- Step 1 reads the low byte of the label only. -/
theorem labelBin_mod (l : LabelPort) : labelBin (BitVec.ofNat 16 (l.toNat % 256)) = labelBin l := by
  apply BitVec.eq_of_toNat_eq
  calc (labelBin (BitVec.ofNat 16 (l.toNat % 256))).toNat
      = (BitVec.ofNat 16 (l.toNat % 256)).toNat % 2 ^ 8 := toNat_extractLsb'_zero _ 8
    _ = l.toNat % 2 ^ 8 := (congrArg (· % 2 ^ 8) (toNat_label_mod l)).trans (Nat.mod_mod _ _)
    _ = (labelBin l).toNat := (toNat_extractLsb'_zero l 8).symm

section Truncation

variable (l : LabelPort) (d : DataPort) (m : SsmPort) (i : SdiPort)

theorem encodeWord_label_mod :
    encodeWord ⟨l, d, m, i⟩ = encodeWord ⟨BitVec.ofNat 16 (l.toNat % 256), d, m, i⟩ := by
  simp only [encodeWord, bodyOf, labelRev, labelBin_mod]

/-- Neither check flags the label, and the others do not look at it. -/
theorem errMask_wide_eq_narrow_mod (hl : l.toNat ≤ 2047) :
    errMask .wide ⟨l, d, m, i⟩ = errMask .narrow ⟨BitVec.ofNat 16 (l.toNat % 256), d, m, i⟩ := by
  have hwide : badLabel .wide l = false := decide_eq_false (Nat.not_lt.2 hl)
  have hnarrow : badLabel .narrow (BitVec.ofNat 16 (l.toNat % 256)) = false := by
    rw [badLabel, toNat_label_mod]
    exact decide_eq_false (Nat.not_lt.2 (Nat.le_of_lt_succ (Nat.mod_lt _ (by decide))))
  simp only [errMask, hwide, hnarrow]

theorem encodeOp_wide_eq_narrow_mod (hl : l.toNat ≤ 2047) :
    encodeOp .wide ⟨l, d, m, i⟩ = encodeOp .narrow ⟨BitVec.ofNat 16 (l.toNat % 256), d, m, i⟩ := by
  rw [encodeOp, encodeOp, errMask_wide_eq_narrow_mod l d m i hl, encodeWord_label_mod]

end Truncation

/-- Settles O27: the wide check lets labels of 11 bits pass, and the word depends on the low byte of the label only. -/
theorem wideLabelMaxTruncatesSilently : Obligations.WideLabelMaxTruncatesSilently := by
  refine ⟨errMask_label_iff .wide, fun inp => ?_, encodeOp_wide_eq_narrow_mod, fun l d m i w h => ?_, by decide, by decide⟩
  · exact (errMask_label_iff .wide inp).trans (max_lt_toNat_iff_exists_high_bit inp.label rfl)
  · obtain ⟨-, rfl⟩ := encodeOp_eq_ok_iff.1 h
    exact decodeOp_encodeWord_label _

end Sys2Proof.Machine
end

section
/-! The fields DECODE cuts from a word, and its parity verdict (41_decoder.md R72 to R78). -/

namespace Sys2Proof.Machine

section ZeroExtension

variable {n m : Nat} (x : BitVec n)

/-- Zero extension keeps every bit, those above the field included, which are 0. -/
theorem getLsbD_zeroExtend (hnm : n ≤ m) (k : Nat) : (x.setWidth m).getLsbD k = x.getLsbD k := by
  rw [BitVec.getLsbD_setWidth]
  rcases Nat.lt_or_ge k m with hk | hk
  · rw [decide_eq_true hk, Bool.true_and]
  · rw [BitVec.getLsbD_of_ge x k (hnm.trans hk), Bool.and_false]

/-- Zero extension keeps the value, which is at most the largest of the field. -/
theorem toNat_zeroExtend_le {max : Nat} (hnm : n ≤ m) (hmax : max + 1 = 2 ^ n) : (x.setWidth m).toNat ≤ max := by
  rw [BitVec.toNat_setWidth_of_le hnm, ← Nat.lt_succ_iff, Nat.succ_eq_add_one, hmax]
  exact x.isLt

end ZeroExtension

section Word

variable (w : ArincWord)

section Fields

variable (k : Nat)

/-- Position k of the label, read back in its own order, is position 7 - k of the field that starts at bit 24 (R72). -/
theorem getLsbD_decPorts_label :
    (decPorts w).label.getLsbD k = (decide (k < 8) && w.getLsbD (31 - k)) := by
  rw [decPorts_label, getLsbD_zeroExtend _ (by decide), getLsbD_rev8, getLsbD_wordLabelRev]
  by_cases hk : k < 8
  · rw [decide_eq_true (show 7 - k < 8 by omega), Bool.true_and, show 24 + (7 - k) = 31 - k by omega]
  · rw [decide_eq_false hk, Bool.false_and, Bool.false_and]

theorem getLsbD_decPorts_data : (decPorts w).data.getLsbD k = (decide (k < 19) && w.getLsbD (5 + k)) := by
  rw [decPorts_data, getLsbD_zeroExtend _ (by decide), getLsbD_wordData]

theorem getLsbD_decPorts_ssm : (decPorts w).ssm.getLsbD k = (decide (k < 2) && w.getLsbD (3 + k)) := by
  rw [decPorts_ssm, getLsbD_zeroExtend _ (by decide), getLsbD_wordSsm]

theorem getLsbD_decPorts_sdi : (decPorts w).sdi.getLsbD k = (decide (k < 2) && w.getLsbD (1 + k)) := by
  rw [decPorts_sdi, getLsbD_zeroExtend _ (by decide), getLsbD_wordSdi]

theorem getLsbD_decPorts_parity : (decPorts w).parity.getLsbD k = (decide (k < 1) && w.getLsbD 0) := by
  rw [decPorts_parity, getLsbD_zeroExtend _ (by decide), getLsbD_wordParity]
  by_cases hk : k < 1
  · rw [Nat.lt_one_iff.1 hk]
  · rw [decide_eq_false hk, Bool.false_and, Bool.false_and]

end Fields

/-- No field exceeds its own width (R72 to R76). -/
theorem decPorts_toNat_le : (decPorts w).label.toNat ≤ 255 ∧ (decPorts w).data.toNat ≤ 524287 ∧
    (decPorts w).ssm.toNat ≤ 3 ∧ (decPorts w).sdi.toNat ≤ 3 ∧ (decPorts w).parity.toNat ≤ 1 :=
  ⟨toNat_zeroExtend_le _ (by decide) rfl, toNat_zeroExtend_le _ (by decide) rfl,
    toNat_zeroExtend_le _ (by decide) rfl, toNat_zeroExtend_le _ (by decide) rfl,
    toNat_zeroExtend_le _ (by decide) rfl⟩

/-- The received bit is the expected one exactly when it makes the count of the whole word odd (R78). -/
theorem wordParity_eq_parityBit_iff : wordParity w = parityBit (wordBody w) ↔ popcount w % 2 = 1 := by
  rw [popcount_word, eq_comm]
  rcases BitVec.eq_zero_or_eq_one (wordParity w) with hbit | hbit
  · rw [hbit, show popcount (0#1) = 0 from rfl, Nat.add_zero]
    exact parityBit_eq_zero_iff (wordBody w)
  · rw [hbit, show popcount (1#1) = 1 from rfl]
    exact (parityBit_eq_one_iff (wordBody w)).trans (by omega)

theorem parityValid_iff_odd : parityValid w = true ↔ popcount w % 2 = 1 :=
  beq_iff_eq.trans (wordParity_eq_parityBit_iff w)

/-- The parity checker is an exclusive or of the whole word. -/
theorem parityValid_eq_xorr : parityValid w = xorr w := by
  rw [show xorr w = decide (popcount w % 2 = 1) from xorBelow_eq w 32, Bool.eq_iff_iff, decide_eq_true_iff]
  exact parityValid_iff_odd w

end Word

/-- Settles O28: each output of DECODE is a slice of the word, zero-extended to its port. -/
theorem decodeCutsEveryField : Obligations.DecodeCutsEveryField := fun w s =>
  ⟨_, exec_decode w s, getLsbD_decPorts_label w, getLsbD_decPorts_data w, getLsbD_decPorts_ssm w,
    getLsbD_decPorts_sdi w, getLsbD_decPorts_parity w, decPorts_toNat_le w⟩

/-- Settles O29: the expected bit is the parity bit of the body, and the received one equals it exactly when the word's
count is odd. -/
theorem parityVerdictIsOddOnes : Obligations.ParityVerdictIsOddOnes := fun w s =>
  have hvalid : (decPorts w).parityValid = 1 ↔ parityValid w = true := decPorts_parityValid_eq_one_iff w
  ⟨_, exec_decode w s, parityBit_eq_one_iff _, parityBit_eq_zero_iff _, parityBit_eq_not_xorr _,
    hvalid.trans beq_iff_eq, hvalid.trans (parityValid_iff_odd w), congrArg BitVec.ofBool (parityValid_eq_xorr w)⟩

end Sys2Proof.Machine
end

section
/-! DECODE of ENCODE, and what ENCODE rejects (42_codec_laws.md R85, R89). -/

namespace Sys2Proof.Machine

/-- An operand that fits its field loses nothing when it is cut to the field and zero-extended to its port again. -/
theorem setWidth_extractLsb'_of_lt {w n : Nat} {x : BitVec w} (hnw : n ≤ w) (hx : x.toNat < 2 ^ n) :
    (x.extractLsb' 0 n).setWidth w = x := by
  apply BitVec.eq_of_toNat_eq
  rw [BitVec.toNat_setWidth_of_le hnw, toNat_extractLsb'_zero, Nat.mod_eq_of_lt hx]

section RoundTrip

variable {lm : LabelMax} {inp : EncIn}

theorem decodeOp_encodeWord_data (h : Legal lm inp) : (decodeOp (encodeWord inp)).data = inp.data := by
  obtain ⟨-, hdata, -, -⟩ := h
  calc (decodeOp (encodeWord inp)).data
      = (inp.data.extractLsb' 0 19).setWidth 32 := congrArg (BitVec.setWidth 32) (wordData_encodeWord inp)
    _ = inp.data := setWidth_extractLsb'_of_lt (by decide) (Nat.lt_succ_of_le hdata)

theorem decodeOp_encodeWord_ssm (h : Legal lm inp) : (decodeOp (encodeWord inp)).ssm = inp.ssm := by
  obtain ⟨-, -, hssm, -⟩ := h
  calc (decodeOp (encodeWord inp)).ssm
      = (inp.ssm.extractLsb' 0 2).setWidth 8 := congrArg (BitVec.setWidth 8) (wordSsm_encodeWord inp)
    _ = inp.ssm := setWidth_extractLsb'_of_lt (by decide) (Nat.lt_succ_of_le hssm)

theorem decodeOp_encodeWord_sdi (h : Legal lm inp) : (decodeOp (encodeWord inp)).sdi = inp.sdi := by
  obtain ⟨-, -, -, hsdi⟩ := h
  calc (decodeOp (encodeWord inp)).sdi
      = (inp.sdi.extractLsb' 0 2).setWidth 8 := congrArg (BitVec.setWidth 8) (wordSdi_encodeWord inp)
    _ = inp.sdi := setWidth_extractLsb'_of_lt (by decide) (Nat.lt_succ_of_le hsdi)

theorem decodeOp_encodeWord_parityValid (inp : EncIn) : (decodeOp (encodeWord inp)).parityValid = true :=
  (parityValid_iff_odd _).2 (popcount_encodeWord_odd inp)

/-- Only the low byte of a label is in the word, so a label comes back exactly when it has no more. -/
theorem decodeOp_encodeWord_label_iff (inp : EncIn) :
    (decodeOp (encodeWord inp)).label = inp.label ↔ inp.label.toNat ≤ 255 := by
  rw [← BitVec.toNat_inj, decodeOp_encodeWord_label]
  omega

/-- Operands that are legal for this hardware come back on DEC's ports whole (R85). -/
theorem decPorts_encodeWord {l : LabelPort} {d : DataPort} {m : SsmPort} {i : SdiPort}
    (h : Legal Config.labelMax ⟨l, d, m, i⟩) : decPorts (encodeWord ⟨l, d, m, i⟩) =
      ⟨l, d, m, i, (parityBit (bodyOf ⟨l, d, m, i⟩)).setWidth 8, 1⟩ := by
  have hlabel : (decodeOp (encodeWord ⟨l, d, m, i⟩)).label = l := (decodeOp_encodeWord_label_iff _).2 h.1
  have hparity : (decodeOp (encodeWord ⟨l, d, m, i⟩)).parity = (parityBit (bodyOf ⟨l, d, m, i⟩)).setWidth 8 :=
    congrArg (BitVec.setWidth 8) (wordParity_encodeWord _)
  rw [decPorts, hlabel, decodeOp_encodeWord_data h, decodeOp_encodeWord_ssm h, decodeOp_encodeWord_sdi h, hparity,
    decodeOp_encodeWord_parityValid]
  rfl

end RoundTrip

/-- Settles O32: every field holds its operand, cut to a width that legal operands fit, and the parity bit is the expected
one. -/
theorem roundTripReturnsTheOperands : Obligations.RoundTripReturnsTheOperands := by
  refine ⟨fun l d m i s h => ⟨_, _, exec_encode_legal s h, (EncOut.result_eq_ok_iff _ _).2 ⟨rfl, rfl⟩,
    exec_decode _ _, decPorts_encodeWord h⟩, fun l d m i w h => ?_⟩
  obtain ⟨hlegal, rfl⟩ := encodeOp_eq_ok_iff.1 h
  exact ⟨decodeOp_encodeWord_data hlegal, decodeOp_encodeWord_ssm hlegal, decodeOp_encodeWord_sdi hlegal,
    decodeOp_encodeWord_parityValid _, decodeOp_encodeWord_label_iff _⟩

/-- ENCODE names the operand of the lowest flag (R107). -/
theorem encodeOp_eq_invalidArgument_iff {lm : LabelMax} {inp : EncIn} {f : ErrField} :
    encodeOp lm inp = .invalidArgument f ↔ offender (errMask lm inp) = some f := by
  rw [← encPorts_result, EncOut.result_eq_invalidArgument_iff, encPorts_err]

/-- The label's flag is the lowest, so nothing comes before a label out of range (R107). -/
theorem encodeOp_of_label_gt {lm : LabelMax} {inp : EncIn} (h : lm.value < inp.label.toNat) :
    encodeOp lm inp = .invalidArgument .label :=
  encodeOp_eq_invalidArgument_iff.2 (if_pos ((errMask_label_iff lm inp).2 h))

/-- What ENCODE computes stands on ENC's output ports (R17). -/
theorem exec_encode_result {l : LabelPort} {d : DataPort} {m : SsmPort} {i : SdiPort} {r : EncResult} (s : State)
    (h : encodeOp Config.labelMax ⟨l, d, m, i⟩ = r) :
    ∃ t, exec (.encode l d m i) s = .next t ∧ t.encOut.result = r :=
  ⟨_, exec_encode l d m i s, (encPorts_result _ _).trans h⟩

/-- Settles O24: an illegal request sets a flag, and a flag names a field; the named cases are evaluated, the label's by the
order of the checks. -/
theorem illegalEncodeIsRejected : Obligations.IllegalEncodeIsRejected := by
  refine ⟨fun l d m i s h => ?_, fun l s hl => exec_encode_result s (encodeOp_of_label_gt hl),
    fun s => exec_encode_result s (by decide), fun s => exec_encode_result s (by decide),
    fun s => exec_encode_result s (by decide), fun s => exec_encode_result s (by decide)⟩
  obtain ⟨f, -, hf⟩ := encodeOp_of_ne_zero (mt (legal_iff_errMask _ _).2 h)
  obtain ⟨t, hexec, hresult⟩ := exec_encode_result s hf
  exact ⟨t, f, hexec, hresult, congrArg EncResult.word? hresult⟩

end Sys2Proof.Machine
end

section
/-! What every encoded word is like: odd, of 32 digits, each field its own operand's (42_codec_laws.md R86 to R88). -/

namespace Sys2Proof.Machine

/-- Of the counts of 32 bits only 32 exceeds 31, and it is even. -/
theorem popcount_encodeWord_le (inp : EncIn) : popcount (encodeWord inp) ≤ 31 := by
  have hodd := popcount_encodeWord_odd inp
  have hle := popcount_le (encodeWord inp)
  omega

/-- Settles O16: the parity bit makes the count odd. -/
theorem encodedWordHasOddOnes : Obligations.EncodedWordHasOddOnes := fun _ _ _ _ s h =>
  ⟨_, exec_encode_legal s h, popcount_encodeWord_odd _, popcount_encodeWord_le _⟩

theorem length_render (n v : Nat) : (render n v).length = n := by
  induction n with
  | zero => rfl
  | succ n ih => rw [render, List.length_cons, ih]

/-- Reading digits on after `acc` moves it up by their number and adds their value. -/
theorem foldl_render (n v acc : Nat) :
    (render n v).foldl (fun acc d => 2 * acc + d.toNat) acc = acc * 2 ^ n + v % 2 ^ n := by
  induction n generalizing acc with
  | zero => simp [render, Nat.mod_one]
  | succ n ih =>
    rw [render, List.foldl_cons, ih, Nat.toNat_testBit, Nat.mod_pow_succ]
    ring

/-- Reading back the lowest `n` digits of a number gives it modulo 2^n. -/
theorem parse_render (n v : Nat) : parse (render n v) = v % 2 ^ n := by
  rw [parse, foldl_render, Nat.zero_mul, Nat.zero_add]

/-- Settles O17: 32 digits are rendered, and they hold the whole of a value below 2^32. -/
theorem encodedWordHasThirtyTwoDigits : Obligations.EncodedWordHasThirtyTwoDigits := fun _ _ _ _ s h =>
  ⟨_, exec_encode_legal s h, length_render _ _, (parse_render _ _).trans (Nat.mod_eq_of_lt (BitVec.isLt _)),
    encodeWord_toNat_bounds _⟩

/-- Apart from the parity bit, a bit of the word depends only on the operand whose field it is in (R88). -/
theorem getLsbD_encodeWord_congr {x y : EncIn} {b : Nat} (hb : 1 ≤ b) (hsdi : b < 3 → x.sdi = y.sdi)
    (hssm : 3 ≤ b → b < 5 → x.ssm = y.ssm) (hdata : 5 ≤ b → b < 24 → x.data = y.data)
    (hlabel : 24 ≤ b → x.label = y.label) : (encodeWord x).getLsbD b = (encodeWord y).getLsbD b := by
  have hne : b ≠ 0 := Nat.one_le_iff_ne_zero.1 hb
  rw [getLsbD_encodeWord, getLsbD_encodeWord, if_neg hne, if_neg hne]
  split_ifs with h3 h5 h24 h32
  · rw [hsdi h3]
  · rw [hssm (Nat.not_lt.1 h3) h5]
  · rw [hdata (Nat.not_lt.1 h5) h24]
  · rw [hlabel (Nat.not_lt.1 h24)]
  · rfl

/-- Settles O18: at a bit outside the field of the operand that differs, the bit's own operand is the same in both. -/
theorem eachOperandOwnsItsFieldBits : Obligations.EachOperandOwnsItsFieldBits := by
  obtain ⟨-, hzero, -⟩ := wordIsBodyThenParity
  refine ⟨fun l l' d d' m m' i i' s h h' => ⟨_, _, exec_encode_legal s h, exec_encode_legal s h', ?_, ?_, ?_, ?_⟩,
    fun s => ⟨_, exec_encode_legal s (by decide), rfl, wordSsm_encodeWord _⟩, hzero⟩
  · exact fun hd hm hi b hb hb' => getLsbD_encodeWord_congr hb (fun _ => hi) (fun _ _ => hm) (fun _ _ => hd) (by omega)
  · exact fun hl hm hi b hb => getLsbD_encodeWord_congr (by omega) (fun _ => hi) (fun _ _ => hm) (by omega) (fun _ => hl)
  · exact fun hl hd hi b hb => getLsbD_encodeWord_congr (by omega) (fun _ => hi) (by omega) (fun _ _ => hd) (fun _ => hl)
  · exact fun hl hd hm b hb => getLsbD_encodeWord_congr (by omega) (by omega) (fun _ _ => hm) (fun _ _ => hd) (fun _ => hl)

end Sys2Proof.Machine
end

section
/-! A single flipped bit of an encoded word (42_codec_laws.md R90). -/

namespace Sys2Proof.Machine

theorem getLsbD_one_shiftLeft {n b : Nat} (hb : b < n) (k : Nat) : (1#n <<< b).getLsbD k = decide (b = k) := by
  rw [← BitVec.twoPow_eq, BitVec.getLsbD_twoPow, decide_eq_true hb, Bool.true_and]

theorem popcount_one_shiftLeft {n b : Nat} (hb : b < n) : popcount (1#n <<< b) = 1 := by
  calc popcount (1#n <<< b)
      = ∑ k ∈ Finset.range n, ((1#n <<< b).getLsbD k).toNat := onesBelow_eq_sum _ _
    _ = ∑ k ∈ Finset.range n, if b = k then 1 else 0 := Finset.sum_congr rfl fun k _ => by
      rw [getLsbD_one_shiftLeft hb, Bool.toNat, Bool.cond_decide]
    _ = 1 := by rw [Finset.sum_ite_eq, if_pos (Finset.mem_range.2 hb)]

section Flip

variable {w : ArincWord} {b : Nat}

/-- A flipped bit turns the verdict of a valid word. -/
theorem parityValid_flip (hb : b < 32) (hodd : popcount w % 2 = 1) : parityValid (w ^^^ 1#32 <<< b) = false := by
  have hxor : popcount (w ^^^ 1#32 <<< b) % 2 = (popcount w + popcount (1#32 <<< b)) % 2 := onesBelow_xor _ _ 32
  rw [popcount_one_shiftLeft hb] at hxor
  rw [Bool.eq_false_iff, Ne, parityValid_iff_odd]
  omega

/-- A field `x`, read from the bits `pos k` of a word, and the same field `x'` of the word with bit `b` flipped: when bit `b` is
in the field, which is when `c` holds, bit `j` of the field is flipped, and else nothing. -/
theorem field_flip {n p j : Nat} {x x' : BitVec p} {pos : Nat → Nat} {c : Prop} [Decidable c] (hb : b < 32) (hnp : n ≤ p)
    (hx : ∀ k, x.getLsbD k = (decide (k < n) && w.getLsbD (pos k)))
    (hx' : ∀ k, x'.getLsbD k = (decide (k < n) && (w ^^^ 1#32 <<< b).getLsbD (pos k)))
    (hpos : ∀ k, k < n ∧ b = pos k ↔ c ∧ j = k) : x' = if c then x ^^^ 1#p <<< j else x := by
  have hflip : ∀ k, x'.getLsbD k = (x.getLsbD k ^^ decide (c ∧ j = k)) := fun k => by
    rw [hx', hx, BitVec.getLsbD_xor, getLsbD_one_shiftLeft hb, Bool.and_xor_distrib_left, ← Bool.decide_and,
      decide_eq_decide.2 (hpos k)]
  refine BitVec.eq_of_getLsbD_eq fun k _ => ?_
  rw [hflip]
  split_ifs with hc
  · obtain ⟨hj, -⟩ := (hpos j).2 ⟨hc, rfl⟩
    rw [BitVec.getLsbD_xor, getLsbD_one_shiftLeft (hj.trans_le hnp), decide_eq_decide.2 (and_iff_right hc)]
  · rw [decide_eq_false (fun h => hc h.1), Bool.xor_false]

variable (w)

theorem decPorts_label_flip (hb : b < 32) : (decPorts (w ^^^ 1#32 <<< b)).label =
    if 24 ≤ b then (decPorts w).label ^^^ 1#16 <<< (31 - b) else (decPorts w).label :=
  field_flip hb (by decide) (getLsbD_decPorts_label w) (getLsbD_decPorts_label _) (by omega)

theorem decPorts_data_flip (hb : b < 32) : (decPorts (w ^^^ 1#32 <<< b)).data =
    if 5 ≤ b ∧ b < 24 then (decPorts w).data ^^^ 1#32 <<< (b - 5) else (decPorts w).data :=
  field_flip hb (by decide) (getLsbD_decPorts_data w) (getLsbD_decPorts_data _) (by omega)

theorem decPorts_ssm_flip (hb : b < 32) : (decPorts (w ^^^ 1#32 <<< b)).ssm =
    if 3 ≤ b ∧ b < 5 then (decPorts w).ssm ^^^ 1#8 <<< (b - 3) else (decPorts w).ssm :=
  field_flip hb (by decide) (getLsbD_decPorts_ssm w) (getLsbD_decPorts_ssm _) (by omega)

theorem decPorts_sdi_flip (hb : b < 32) : (decPorts (w ^^^ 1#32 <<< b)).sdi =
    if 1 ≤ b ∧ b < 3 then (decPorts w).sdi ^^^ 1#8 <<< (b - 1) else (decPorts w).sdi :=
  field_flip hb (by decide) (getLsbD_decPorts_sdi w) (getLsbD_decPorts_sdi _) (by omega)

end Flip

/-- Settles O34: the flip turns the verdict of the encoded word and one bit of one field, and the fields of the word itself are
the operands. -/
theorem everySingleBitFlipIsDetected : Obligations.EverySingleBitFlipIsDetected := fun l d m i s b h hb => by
  have hports := decPorts_encodeWord h
  have hlabel := decPorts_label_flip (encodeWord ⟨l, d, m, i⟩) hb
  have hdata := decPorts_data_flip (encodeWord ⟨l, d, m, i⟩) hb
  have hssm := decPorts_ssm_flip (encodeWord ⟨l, d, m, i⟩) hb
  have hsdi := decPorts_sdi_flip (encodeWord ⟨l, d, m, i⟩) hb
  rw [hports] at hlabel hdata hssm hsdi
  exact ⟨_, _, exec_encode_legal s h, exec_decode _ _,
    congrArg BitVec.ofBool (parityValid_flip hb (popcount_encodeWord_odd _)), hlabel, hdata, hssm, hsdi⟩

end Sys2Proof.Machine
end

section
/-! The error indication of ENCODE and the word that no port can carry (60_exceptions.md R101 to R109). -/

namespace Sys2Proof.Machine

theorem decodeRequest_of_word_ge {w : Nat} (h : 2 ^ 32 ≤ w) : decodeRequest ⟨.dec, w⟩ = .error .wordOutOfRange :=
  if_neg (Nat.not_lt.2 h)

/-- A word that is too wide is met by the fetch: no operation is performed (R104). -/
theorem step_of_wordOutOfRange {s : State} {r : Request} {rest : List Request}
    (hp : s.pending = r :: rest) (hd : decodeRequest r = .error .wordOutOfRange) :
    step s = .fault .invalidArgumentWord := by
  have hfetch : fetch s = .fault .invalidArgumentWord := by simp [fetch, hp, hd]
  simp [step, hfetch]

theorem inRange_eq_false_iff (v : Int) (max : Nat) : inRange v max = false ↔ v < 0 ∨ (max : Int) < v := by
  rw [inRange, decide_eq_false_iff_not]
  omega

theorem sourceDecode_of_not_inRange {v : Int} (h : inRange v (2 ^ 32 - 1) = false) : sourceDecode v = .error .word :=
  if_pos (by rw [h, Bool.not_false])

/-- Settles O3: the fetch and the source's range check refuse the word, no flag of `enc_err` stands for WORD, and DECODE has
no other branch than its next state. -/
theorem wordBeyond32BitsIsRefusedAndNeverTruncated : Obligations.WordBeyond32BitsIsRefusedAndNeverTruncated := by
  refine ⟨fun s w rest hw hp => step_of_wordOutOfRange hp (decodeRequest_of_word_ge hw), fun w hw => ?_,
    fun out h => ?_, fun w s => ⟨_, exec_decode w s⟩⟩
  · have hout : w < 0 ∨ ((2 ^ 32 - 1 : Nat) : Int) < w := by omega
    exact sourceDecode_of_not_inRange ((inRange_eq_false_iff _ _).2 hout)
  · exact offender_ne_word _ ((EncOut.result_eq_invalidArgument_iff out .word).1 h)

theorem EncOut.err_eq_zero_iff (out : EncOut) : out.err = 0 ↔ out.result = .ok out.word := by
  rw [EncOut.result_eq_ok_iff, and_iff_left rfl]

/-- A flag on `enc_err` is an InvalidArgument, whatever `enc_word` holds (R17, R102). -/
theorem EncOut.err_ne_zero_iff (out : EncOut) : out.err ≠ 0 ↔ ∃ f, out.result = .invalidArgument f := by
  rw [Ne, ← offender_eq_none_iff, ← Ne, Option.ne_none_iff_exists']
  exact exists_congr fun f => (EncOut.result_eq_invalidArgument_iff out f).symm

/-- For each value of `enc_err` operands that give it: each is just above its range where its bit is set, and else 0. -/
def operandsFlaggedBy (e : EncErr) : EncIn where
  label := if e.getLsbD 0 then 256 else 0
  data := if e.getLsbD 1 then 524288 else 0
  ssm := if e.getLsbD 2 then 4 else 0
  sdi := if e.getLsbD 3 then 4 else 0

/-- A check of all sixteen values. -/
theorem errMask_operandsFlaggedBy (e : EncErr) : errMask Config.labelMax (operandsFlaggedBy e) = e := by
  revert e; decide

/-- Settles O21: each bit of `enc_err` is its own operand's check, so the sixteen values are the sixteen choices of
operands in and out of range. -/
theorem errFlagsEveryOffendingOperand : Obligations.ErrFlagsEveryOffendingOperand := by
  refine ⟨fun l d m i s => ⟨_, exec_encode l d m i s, ?_, ?_, ?_, ?_, EncOut.err_eq_zero_iff _, EncOut.err_ne_zero_iff _⟩,
    fun e s => ⟨_, _, _, _, _, exec_encode _ _ _ _ s, (encPorts_err _ _).trans (errMask_operandsFlaggedBy e)⟩⟩
  · rw [encPorts_err, errMask_label_iff]; rfl
  · rw [encPorts_err, errMask_data_iff]
  · rw [encPorts_err, errMask_ssm_iff]
  · rw [encPorts_err, errMask_sdi_iff]

section NamedField

variable {lm : LabelMax} {inp : EncIn}

/-- The checks are read in the order LABEL, DATA, SSM, SDI (R107). -/
theorem offender_eq_some_iff (err : EncErr) :
    (offender err = some .label ↔ err.getLsbD 0 = true) ∧
    (offender err = some .data ↔ ¬ err.getLsbD 0 = true ∧ err.getLsbD 1 = true) ∧
    (offender err = some .ssm ↔ ¬ err.getLsbD 0 = true ∧ ¬ err.getLsbD 1 = true ∧ err.getLsbD 2 = true) ∧
    (offender err = some .sdi ↔
      ¬ err.getLsbD 0 = true ∧ ¬ err.getLsbD 1 = true ∧ ¬ err.getLsbD 2 = true ∧ err.getLsbD 3 = true) := by
  revert err; decide

/-- ENCODE names an operand exactly when it is out of range and every one before it is in range (R107). -/
theorem encodeOp_eq_invalidArgument_iff_first :
    (encodeOp lm inp = .invalidArgument .label ↔ lm.value < inp.label.toNat) ∧
    (encodeOp lm inp = .invalidArgument .data ↔ inp.label.toNat ≤ lm.value ∧ 524287 < inp.data.toNat) ∧
    (encodeOp lm inp = .invalidArgument .ssm ↔
      inp.label.toNat ≤ lm.value ∧ inp.data.toNat ≤ 524287 ∧ 3 < inp.ssm.toNat) ∧
    (encodeOp lm inp = .invalidArgument .sdi ↔
      inp.label.toNat ≤ lm.value ∧ inp.data.toNat ≤ 524287 ∧ inp.ssm.toNat ≤ 3 ∧ 3 < inp.sdi.toNat) := by
  have h := offender_eq_some_iff (errMask lm inp)
  simpa only [errMask_label_iff, errMask_data_iff, errMask_ssm_iff, errMask_sdi_iff, Nat.not_lt,
    ← encodeOp_eq_invalidArgument_iff] using h

/-- The flag of the operand that ENCODE names is set, and no lower one (R107). -/
theorem lowest_set_bit_of_encodeOp {f : ErrField} (h : encodeOp lm inp = .invalidArgument f) :
    (errMask lm inp).getLsbD (ErrField.code f - 1) = true ∧
      ∀ k, k < ErrField.code f - 1 → (errMask lm inp).getLsbD k = false :=
  lowest_set_bit_of_offender (encodeOp_eq_invalidArgument_iff.1 h)

theorem encodeOp_ne_invalidArgument_word : encodeOp lm inp ≠ .invalidArgument .word :=
  fun h => offender_ne_word _ (encodeOp_eq_invalidArgument_iff.1 h)

end NamedField

namespace ErrField

/-- Code 0 is left for Ok (R101). -/
theorem code_pos (f : ErrField) : 0 < code f := by
  cases f <;> decide

theorem code_injective : Function.Injective code := by
  intro f g h
  cases f <;> cases g <;> cases h <;> rfl

/-- Code 5 is WORD's alone (R101). -/
theorem code_le_four {f : ErrField} (h : f ≠ .word) : code f ≤ 4 := by
  cases f with
  | label | data | ssm | sdi => decide
  | word => exact absurd rfl h

end ErrField

/-- Settles O22: the field is chosen by the order of the checks; the two examples are evaluated. -/
theorem namedFieldIsTheFirstOffender : Obligations.NamedFieldIsTheFirstOffender := by
  refine ⟨fun l d m i s => ⟨_, exec_encode l d m i s, ?_⟩,
    fun s => ⟨_, exec_encode _ _ _ _ s, ?_⟩, fun s => ⟨_, exec_encode _ _ _ _ s, ?_⟩⟩
  · rw [encPorts_result, encPorts_err]
    obtain ⟨hlabel, hdata, hssm, hsdi⟩ :=
      encodeOp_eq_invalidArgument_iff_first (lm := Config.labelMax) (inp := ⟨l, d, m, i⟩)
    exact ⟨hlabel, hdata, hssm, hsdi,
      fun f hf => ⟨ErrField.code f - 1, (Nat.sub_add_cancel (ErrField.code_pos f)).symm, lowest_set_bit_of_encodeOp hf⟩⟩
  · show (encPorts Config.labelMax ⟨256, 524288, 4, 4⟩).err = 0b1111 ∧
      (encPorts Config.labelMax ⟨256, 524288, 4, 4⟩).result = .invalidArgument .label
    decide
  · show (encPorts Config.labelMax ⟨0, 524288, 0, 4⟩).err = 0b1010 ∧
      (encPorts Config.labelMax ⟨0, 524288, 0, 4⟩).result = .invalidArgument .data
    decide

/-- The all-zero word has no ones, an even count (R109). -/
theorem decPorts_zero_parityValid : (decPorts 0x00000000).parityValid = 0 := by
  decide

theorem EncOut.result_word?_of_err_ne_zero {out : EncOut} (h : out.err ≠ 0) : out.result.word? = none := by
  obtain ⟨f, hf⟩ := (EncOut.err_ne_zero_iff out).1 h
  rw [hf]
  rfl

/-- Settles O23: an illegal request sets a flag and leaves the all-zero word, whose count of ones is even. -/
theorem errorCarriesTheAllZeroWord : Obligations.ErrorCarriesTheAllZeroWord := fun l d m i s h =>
  have herr : errMask Config.labelMax ⟨l, d, m, i⟩ ≠ 0 := mt (legal_iff_errMask _ _).2 h
  ⟨_, exec_encode_illegal s h, herr, rfl, EncOut.result_word?_of_err_ne_zero herr, _, exec_decode _ _,
    decPorts_zero_parityValid⟩

namespace EncResult

/-- A result has the code of a field exactly when it names the field (R101). -/
theorem code_eq_code_iff (r : EncResult) (f : ErrField) : r.code = ErrField.code f ↔ r = .invalidArgument f := by
  cases r with
  | ok w => exact iff_of_false (ErrField.code_pos f).ne EncResult.noConfusion
  | invalidArgument g => rw [EncResult.code, ErrField.code_injective.eq_iff, EncResult.invalidArgument.injEq]

theorem code_eq_zero_iff (r : EncResult) : r.code = 0 ↔ ∃ w, r = .ok w := by
  cases r with
  | ok w => exact iff_of_true rfl ⟨w, rfl⟩
  | invalidArgument f => exact iff_of_false (ErrField.code_pos f).ne' fun ⟨_, h⟩ => EncResult.noConfusion h

theorem code_le_four {r : EncResult} (h : r ≠ .invalidArgument .word) : r.code ≤ 4 := by
  cases r with
  | ok w => exact Nat.zero_le 4
  | invalidArgument f => exact ErrField.code_le_four fun hf => h (congrArg _ hf)

end EncResult

section Codes

variable {lm : LabelMax} {inp : EncIn}

theorem code_encodeOp_eq_zero_iff : (encodeOp lm inp).code = 0 ↔ Legal lm inp := by
  rw [EncResult.code_eq_zero_iff]
  simp only [encodeOp_eq_ok_iff, exists_and_left, exists_eq', and_true]

/-- An operand whose code is given is flagged (R101, R102). -/
theorem errMask_of_code {f : ErrField} (h : (encodeOp lm inp).code = ErrField.code f) :
    (errMask lm inp).getLsbD (ErrField.code f - 1) = true := by
  obtain ⟨hset, -⟩ := lowest_set_bit_of_encodeOp ((EncResult.code_eq_code_iff _ f).1 h)
  exact hset

end Codes

/-- Settles O25: the codes and ranges are the table of R101, and a code is one plus the index of a flag, which is set only
for an operand above its range. -/
theorem errorCodesAndAllowedRanges : Obligations.ErrorCodesAndAllowedRanges := by
  refine ⟨⟨rfl, rfl, rfl, rfl, rfl⟩, ⟨rfl, rfl, fun _ => ⟨rfl, rfl, rfl, rfl⟩⟩,
    fun l d m i s => ⟨_, exec_encode l d m i s, ?_⟩⟩
  rw [encPorts_result]
  exact ⟨code_encodeOp_eq_zero_iff,
    fun h => (errMask_label_iff _ _).1 (errMask_of_code (f := .label) h),
    fun h => (errMask_data_iff _ _).1 (errMask_of_code (f := .data) h),
    fun h => (errMask_ssm_iff _ _).1 (errMask_of_code (f := .ssm) h),
    fun h => (errMask_sdi_iff _ _).1 (errMask_of_code (f := .sdi) h),
    EncResult.code_le_four encodeOp_ne_invalidArgument_word⟩

end Sys2Proof.Machine
end

section
/-! Requests and operations are the same thing, as long as the request fits its format (30_encoding.md R33 to R36). -/

namespace Sys2Proof

theorem decodeRequest_enc (v : BitVec 64) : decodeRequest ⟨.enc, v.toNat⟩ =
    .ok (.encode (v.extractLsb' 48 16) (v.extractLsb' 16 32) (v.extractLsb' 8 8) (v.extractLsb' 0 8)) := by
  simp only [decodeRequest, v.isLt, if_true, BitVec.ofNat_toNat, BitVec.setWidth_eq]

theorem decodeRequest_dec (w : ArincWord) : decodeRequest ⟨.dec, w.toNat⟩ = .ok (.decode w) := by
  simp only [decodeRequest, w.isLt, if_true, BitVec.ofNat_toNat, BitVec.setWidth_eq]

/-- Reading back the request of an operation: no operand loses a bit, and the number fits the format. -/
theorem decodeRequest_encodeInstr (op : Instr) : decodeRequest (encodeInstr op) = .ok op := by
  cases op with
  | encode l d m i =>
    calc decodeRequest (encodeInstr (.encode l d m i))
        = .ok (.encode _ _ _ _) := decodeRequest_enc (encReq l d m i)
      _ = .ok (.encode l d m i) := by rw [encReq_label, encReq_data, encReq_ssm, encReq_sdi]
  | decode w => exact decodeRequest_dec w

/-- Settles O5: a request's slices are the operands concatenated there. -/
theorem decodingInvertsEncodingForEveryOperation : Obligations.DecodingInvertsEncodingForEveryOperation :=
  decodeRequest_encodeInstr

/-- The four slices of ENC_REQ meet without a gap (R33). -/
theorem encReq_slices (v : BitVec 64) :
    encReq (v.extractLsb' 48 16) (v.extractLsb' 16 32) (v.extractLsb' 8 8) (v.extractLsb' 0 8) = v := by
  rw [encReq, BitVec.extractLsb'_append_extractLsb'_eq_extractLsb' (by decide),
    BitVec.extractLsb'_append_extractLsb'_eq_extractLsb' (by decide),
    BitVec.extractLsb'_append_extractLsb'_eq_extractLsb' (by decide)]
  exact BitVec.extractLsb'_eq_self

/-- No request that fits its format is left over: every bit of it is an operand bit (R36). -/
theorem exists_encodeInstr_eq_of_wf {r : Request} (h : r.wf = true) : ∃ op, encodeInstr op = r := by
  obtain ⟨_ | _, n⟩ := r
  · have hn : (BitVec.ofNat 64 n).toNat = n := Nat.mod_eq_of_lt (of_decide_eq_true h)
    exact ⟨.encode _ _ _ _, congrArg (Request.mk .enc) ((congrArg BitVec.toNat (encReq_slices (.ofNat 64 n))).trans hn)⟩
  · have hn : (BitVec.ofNat 32 n).toNat = n := Nat.mod_eq_of_lt (of_decide_eq_true h)
    exact ⟨.decode _, congrArg (Request.mk .dec) hn⟩

theorem wf_encodeInstr (op : Instr) : (encodeInstr op).wf = true := by
  cases op with
  | encode l d m i => exact (Laws.FitsFormat.encode l d m i).1
  | decode w => exact (Laws.FitsFormat.decode w).1

/-- A request that does not fit its format is not read as an operation (R45, R104). -/
theorem wf_of_decodeRequest {r : Request} {op : Instr} (h : decodeRequest r = .ok op) : r.wf = true := by
  obtain ⟨_ | _, n⟩ := r
  · simp only [decodeRequest] at h
    split_ifs at h with hn
    exact decide_eq_true hn
  · simp only [decodeRequest] at h
    split_ifs at h with hn
    exact decide_eq_true hn

/-- Reading a request and writing an operation are inverse to each other. -/
theorem decodeRequest_eq_ok_iff {r : Request} {op : Instr} : decodeRequest r = .ok op ↔ encodeInstr op = r := by
  constructor
  · intro h
    obtain ⟨op', rfl⟩ := exists_encodeInstr_eq_of_wf (wf_of_decodeRequest h)
    rw [decodeRequest_encodeInstr] at h
    cases h
    rfl
  · rintro rfl
    exact decodeRequest_encodeInstr op

/-- Settles O6: a request that is read fits its format, so it is the request of some operation, the one read. -/
theorem encodingInvertsDecoding : Obligations.EncodingInvertsDecoding := fun _ _ => decodeRequest_eq_ok_iff.1

/-- Settles O4: the requests that fit their format are those that operations are written as. -/
theorem requestIsAnOperationExactlyWhenItFits : Obligations.RequestIsAnOperationExactlyWhenItFits := fun _ => by
  simp only [decodeRequest_eq_ok_iff]
  exact ⟨fun ⟨op, hop⟩ => hop ▸ wf_encodeInstr op, exists_encodeInstr_eq_of_wf⟩

end Sys2Proof
end

section
/-! What an operation does to the machine, whichever it is (10_state.md R18, 60_exceptions.md R96, R110). -/

namespace Sys2Proof.Machine

/-- Settles O44: each operation has an equation for its next state (R96, R103). -/
theorem everyOperationCompletes : Obligations.EveryOperationCompletes := fun op s => by
  cases op with
  | encode l d m i => exact ⟨_, exec_encode l d m i s⟩
  | decode w => exact ⟨_, exec_decode w s⟩

/-- Settles O45: the next state differs in ENC's ports alone. -/
theorem encodeChangesOnlyEncPorts : Obligations.EncodeChangesOnlyEncPorts := fun l d m i s =>
  ⟨_, exec_encode l d m i s, rfl, rfl, rfl, rfl⟩

/-- Settles O46: the next state differs in DEC's ports alone. -/
theorem decodeChangesOnlyDecPorts : Obligations.DecodeChangesOnlyDecPorts := fun w s =>
  ⟨_, exec_decode w s, rfl, rfl, rfl, rfl⟩

/-- Settles O47: an operation overwrites its unit's ports with values that depend on its operands only. -/
theorem everyOperationIsIdempotent : Obligations.EveryOperationIsIdempotent := fun op s t h => by
  cases op with
  | encode l d m i => rw [exec_encode] at h ⊢; cases h; rfl
  | decode w => rw [exec_decode] at h ⊢; cases h; rfl

/-- Settles O48: the outputs are functions of the operands. -/
theorem outputsDependOnOwnOperandsOnly : Obligations.OutputsDependOnOwnOperandsOnly :=
  ⟨fun l d m i s s' => ⟨_, _, exec_encode l d m i s, exec_encode l d m i s', rfl⟩,
    fun w s s' => ⟨_, _, exec_decode w s, exec_decode w s', rfl⟩⟩

/-- Settles O26: what the failed ENCODE leaves on ENC's ports, the next ENCODE overwrites and the next DECODE does not read. -/
theorem failedEncodeLeavesNoTrace : Obligations.FailedEncodeLeavesNoTrace := fun _ l' _ d' _ m' _ i' w s h =>
  ⟨_, exec_encode_illegal s h, ⟨_, exec_encode l' d' m' i' _, exec_encode l' d' m' i' s⟩,
    _, _, exec_decode w _, exec_decode w s, rfl, rfl⟩

/-- An operation makes its own unit's outputs those of its operands and leaves the other unit as it was (R18). -/
theorem portsAgree_of_exec {op : Instr} {s t : State} (hs : PortsAgree s) (h : exec op s = .next t) : PortsAgree t := by
  obtain ⟨henc, hdec⟩ := hs
  cases op with
  | encode l d m i => rw [exec_encode] at h; cases h; exact ⟨rfl, hdec⟩
  | decode w => rw [exec_decode] at h; cases h; exact ⟨henc, rfl⟩

/-- Settles O50: a step is an operation on the machine with a shorter list, and the list is no port. -/
theorem everyStepKeepsThePortsInAgreement : Obligations.EveryStepKeepsThePortsInAgreement := fun s t hs h => by
  obtain ⟨r, rest, op, -, -, hexec⟩ := step_next h
  have hrest : PortsAgree { s with pending := rest } := hs
  exact portsAgree_of_exec hrest hexec

/-- Settles O51: ENCODE of four zeros is 0x00000001 and DECODE of zero gives zeros. -/
theorem portsAgreeAtReset : Obligations.PortsAgreeAtReset := by
  constructor
  · show (⟨0x00000001, 0⟩ : EncOut) = encPorts Config.labelMax ⟨0, 0, 0, 0⟩
    decide
  · show (⟨0, 0, 0, 0, 0, 0⟩ : DecOut) = decPorts 0
    decide

end Sys2Proof.Machine
end

section
/-! The step, and lists of operations (30_encoding.md R47, 70_reset_and_hazards.md R124, R129). -/

namespace Sys2Proof.Machine

/-- Settles O1: the fetch takes the request off and the step performs what it was read as. -/
theorem stepPerformsThePresentedOperation : Obligations.StepPerformsThePresentedOperation := fun s r rest op hp hd => by
  rw [step, fetch_of_decode hp hd]

/-- Settles O2: the fetch of an empty list refuses. -/
theorem runEndsWhenNothingIsPending : Obligations.RunEndsWhenNothingIsPending := fun s hp => by
  have hfetch : fetch s = .refused .endOfRun := by simp only [fetch, hp]
  rw [step, hfetch]

/-- A row is read as the operation that its request stands for. -/
theorem decodeTableWord_eq_some {nbits w : Nat} {op : Instr} (h : decodeTableWord nbits w = some op) :
    ∃ r, requestOfTableWord nbits w = some r ∧ decodeRequest r = .ok op := by
  unfold decodeTableWord at h
  split at h
  · cases h
  · rename_i r hrow
    split at h
    · rename_i op' hread
      cases h
      exact ⟨r, hrow, hread⟩
    · cases h

/-- Settles O8: the row's request is presented, so the next step takes it and leaves the machine's own list. -/
theorem tableRowIsPerformedByTheNextStep : Obligations.TableRowIsPerformedByTheNextStep := fun s nbits w op h => by
  obtain ⟨r, hrow, hread⟩ := decodeTableWord_eq_some h
  have hpresent : s.withFetchWord nbits w = s.present r := by simp only [State.withFetchWord, hrow]
  rw [hpresent]
  exact stepPerformsThePresentedOperation (s.present r) r s.pending op rfl hread

/-- Settles O9: the five rows are evaluated. -/
theorem writtenOutRequestsDecode : Obligations.WrittenOutRequestsDecode :=
  ⟨by decide, by decide, by decide, by decide, by decide⟩

/-- Settles O52: the step took the head of the list, which was read as an operation, and the operation left the rest. -/
theorem eachStepMakesExactlyOneRequest : Obligations.EachStepMakesExactlyOneRequest := fun s t h => by
  obtain ⟨r, rest, op, hp, hread, hexec⟩ := step_next h
  have hrest : t.pending = rest := exec_pending hexec
  exact ⟨r, hrest ▸ hp, wf_of_decodeRequest hread⟩

/-- A list of operations is performed to its end, and no operation touches the host's list. -/
theorem execAll_completes (ops : List Instr) (s : State) : ∃ t, execAll ops s = .next t ∧ t.pending = s.pending := by
  induction ops generalizing s with
  | nil => exact ⟨s, execAll_nil s, rfl⟩
  | cons op rest ih =>
    obtain ⟨u, hu⟩ := everyOperationCompletes op s
    obtain ⟨t, ht, hpending⟩ := ih u
    exact ⟨t, (execAll_cons rest hu).trans ht, hpending.trans (exec_pending hu)⟩

/-- Settles O49: the outputs after the last operation depend on its operands only, and the two units share no port. -/
theorem historyAndOrderChangeNoResult : Obligations.HistoryAndOrderChangeNoResult := by
  refine ⟨fun before s l d m i => ?_, fun before s w => ?_, fun l d m i w s => ?_⟩
  · obtain ⟨t, ht, -⟩ := execAll_completes before s
    exact ⟨t, _, _, ht, exec_encode l d m i t, exec_encode l d m i s, rfl⟩
  · obtain ⟨t, ht, -⟩ := execAll_completes before s
    exact ⟨t, _, _, ht, exec_decode w t, exec_decode w s, rfl⟩
  · have henc := execAll_cons [.decode w] (exec_encode l d m i s)
    have hdec := execAll_cons [.encode l d m i] (exec_decode w s)
    exact ⟨_, henc.trans (execAll_cons [] (exec_decode w _)), hdec.trans (execAll_cons [] (exec_encode l d m i _))⟩

/-- The host's list is carried along by an operation, whatever it holds. -/
theorem exec_with_pending {op : Instr} {s t : State} (p : List Request) (h : exec op s = .next t) :
    exec op { s with pending := p } = .next { t with pending := p } := by
  cases op with
  | encode l d m i => rw [exec_encode] at h ⊢; cases h; rfl
  | decode w => rw [exec_decode] at h ⊢; cases h; rfl

theorem core_run_succ {s t : State} (n : Nat) (h : step s = .next t) : core.run (n + 1) s = core.run n t := by
  have hstep : core.step s = .next t := h
  simp only [Host.Core.run, hstep]

/-- As many steps as there are operations on the list perform them in order (R129). -/
theorem core_run_map_encodeInstr (ops : List Instr) (s : State) :
    core.run ops.length { s with pending := ops.map encodeInstr } = execAll ops { s with pending := [] } := by
  induction ops generalizing s with
  | nil => rfl
  | cons op rest ih =>
    obtain ⟨t, ht⟩ := everyOperationCompletes op s
    have hexec := exec_with_pending (rest.map encodeInstr) ht
    have hstep : step { s with pending := (op :: rest).map encodeInstr } =
        .next { t with pending := rest.map encodeInstr } :=
      (stepPerformsThePresentedOperation _ _ _ op rfl (decodeRequest_encodeInstr op)).trans hexec
    rw [execAll_cons rest (exec_with_pending [] ht), ← ih t]
    exact core_run_succ rest.length hstep

/-- Well-formed requests are the requests of a list of operations. -/
theorem exists_map_encodeInstr_eq_pending {s : State} (h : PendingWf s) :
    ∃ ops : List Instr, ops.map encodeInstr = s.pending := by
  have hrange : s.pending ∈ Set.range (List.map encodeInstr) := by
    rw [Set.range_list_map]
    exact fun r hr => exists_encodeInstr_eq_of_wf (h r hr)
  exact hrange

/-- Settles O53: a well-formed list is one of operations, the run of such a list performs them one by one, and every
operation completes. -/
theorem everyListOfOperationsRunsToItsEnd : Obligations.EveryListOfOperationsRunsToItsEnd := by
  refine ⟨fun s hwf => ?_, core_run_map_encodeInstr⟩
  obtain ⟨ops, hops⟩ := exists_map_encodeInstr_eq_pending hwf
  obtain ⟨t, ht, hpending⟩ := execAll_completes ops { s with pending := [] }
  have hrun := core_run_map_encodeInstr ops s
  rw [hops] at hrun
  rw [← hops, List.length_map]
  exact ⟨t, hrun.trans ht, hpending⟩

end Sys2Proof.Machine
end

section
/-! The fields of a word, and the verdict over them (41_decoder.md R72 to R79, 42_codec_laws.md R94, R97). -/

namespace Sys2Proof.Machine

/-- The bits that zero extension adds are not ones. -/
theorem popcount_zeroExtend {n m : Nat} (x : BitVec n) (hnm : n ≤ m) : popcount (x.setWidth m) = popcount x := by
  obtain ⟨e, rfl⟩ := Nat.exists_eq_add_of_le hnm
  have hsum : ∀ k, onesBelow (x.setWidth (n + e)) (n + k) = onesBelow x n := fun k => by
    induction k with
    | zero => exact onesBelow_congr fun j _ => getLsbD_zeroExtend x hnm j
    | succ k ih =>
      rw [← Nat.add_assoc, onesBelow_succ, ih, getLsbD_zeroExtend x hnm, BitVec.getLsbD_of_ge x _ (Nat.le_add_right n k)]
      rfl
  exact hsum e

/-- The operands that DEC's outputs are when they drive ENC's inputs (42_codec_laws.md R91, R95). -/
def decodedFields (w : ArincWord) : EncIn :=
  ⟨(decPorts w).label, (decPorts w).data, (decPorts w).ssm, (decPorts w).sdi⟩

section Fields

variable (w : ArincWord)

/-- The bits that the parity covers are the four fields side by side (R30). -/
theorem wordBody_eq_append :
    wordBody w = (wordLabelRev w ++ wordData w ++ wordSsm w ++ wordSdi w : BitVec (8 + 19 + 2 + 2)) := by
  rw [wordLabelRev, wordData, wordSsm, wordSdi, BitVec.extractLsb'_append_extractLsb'_eq_extractLsb' (by decide),
    BitVec.extractLsb'_append_extractLsb'_eq_extractLsb' (by decide),
    BitVec.extractLsb'_append_extractLsb'_eq_extractLsb' (by decide)]
  rfl

theorem popcount_wordBody : popcount (wordBody w) =
    popcount (wordLabelRev w) + popcount (wordData w) + popcount (wordSsm w) + popcount (wordSdi w) := by
  have happend : popcount (wordBody w) =
      popcount (wordLabelRev w ++ wordData w ++ wordSsm w ++ wordSdi w) := congrArg popcount (wordBody_eq_append w)
  rw [happend, popcount_append, popcount_append, popcount_append]

/-- Cutting a zero-extended field to its width gives the field back. -/
theorem extractLsb'_zeroExtend {n m : Nat} (x : BitVec n) (hnm : n ≤ m) : (x.setWidth m).extractLsb' 0 n = x := by
  rw [BitVec.extractLsb'_setWidth_of_le ((Nat.zero_add n).trans_le hnm), BitVec.extractLsb'_eq_self]

/-- Driving ENC with what DEC cut from a word puts every field back in its place (R91). -/
@[simp] theorem bodyOf_decodedFields : bodyOf (decodedFields w) = wordBody w := by
  have hlabel : labelRev (decodedFields w).label = wordLabelRev w := by
    calc labelRev (decodedFields w).label
        = rev8 (rev8 (wordLabelRev w)) := congrArg rev8 (extractLsb'_zeroExtend (rev8 (wordLabelRev w)) (by decide))
      _ = wordLabelRev w := rev8_rev8 _
  have hdata : (decodedFields w).data.extractLsb' 0 19 = wordData w := extractLsb'_zeroExtend _ (by decide)
  have hssm : (decodedFields w).ssm.extractLsb' 0 2 = wordSsm w := extractLsb'_zeroExtend _ (by decide)
  have hsdi : (decodedFields w).sdi.extractLsb' 0 2 = wordSdi w := extractLsb'_zeroExtend _ (by decide)
  rw [bodyOf, hlabel, hdata, hssm, hsdi, wordBody_eq_append]

/-- DEC's outputs fit their fields, whatever LABEL_MAX is (R95). -/
theorem legal_decodedFields (lm : LabelMax) : Legal lm (decodedFields w) := by
  obtain ⟨hlabel, hdata, hssm, hsdi, -⟩ := decPorts_toNat_le w
  have hmax : 255 ≤ lm.value := by cases lm <;> decide
  exact ⟨hlabel.trans hmax, hdata, hssm, hsdi⟩

end Fields

/-- Settles O30: each output of DECODE is a field zero-extended to its port. -/
theorem decodedFieldsAreLegalOperands : Obligations.DecodedFieldsAreLegalOperands := fun w s => by
  obtain ⟨-, -, -, -, hparity⟩ := decPorts_toNat_le w
  exact ⟨_, exec_decode w s, legal_decodedFields w .narrow, hparity,
    fun lm => (legal_iff_errMask lm _).1 (legal_decodedFields w lm)⟩

/-- An error pattern turns the verdict exactly when it flips an odd number of bits (R94). -/
theorem parityValid_xor (w e : ArincWord) :
    parityValid (w ^^^ e) = (parityValid w ^^ decide (popcount e % 2 = 1)) := by
  have hcount : popcount (w ^^^ e) % 2 = (popcount w + popcount e) % 2 := onesBelow_xor w e 32
  rw [Bool.eq_iff_iff, parityValid_iff_odd]
  rcases Nat.mod_two_eq_zero_or_one (popcount e) with he | he
  · rw [he, decide_eq_false (by decide), Bool.xor_false, parityValid_iff_odd]
    omega
  · rw [he, decide_eq_true rfl, Bool.xor_true, Bool.not_eq_true', ← Bool.not_eq_true, parityValid_iff_odd]
    omega

/-- Settles O35: the verdict is the exclusive or of all bits, so it changes with an odd number of them. -/
theorem parityCatchesExactlyOddErrorPatterns : Obligations.ParityCatchesExactlyOddErrorPatterns := fun w e s => by
  refine ⟨_, _, exec_decode w s, exec_decode (w ^^^ e) s, fun hodd => ?_, fun heven => ?_⟩
  · rw [decPorts_parityValid, decPorts_parityValid, parityValid_xor, hodd]
    cases parityValid w <;> decide
  · rw [decPorts_parityValid, decPorts_parityValid, parityValid_xor, heven]
    cases parityValid w <;> decide

/-- Flipping the parity bit turns the verdict (R78). -/
theorem parityValid_flip_parity (w : ArincWord) : parityValid (w ^^^ 1) = !parityValid w := by
  rw [parityValid_xor, show popcount (1 : ArincWord) = 1 from rfl]
  exact Bool.xor_true _

/-- No field holds the parity bit (R30). -/
theorem decodedFields_flip_parity (w : ArincWord) : decodedFields (w ^^^ 1) = decodedFields w := by
  have hflip : w ^^^ (1 : ArincWord) = w ^^^ 1#32 <<< 0 := rfl
  rw [hflip, decodedFields, decPorts_label_flip w (by decide), decPorts_data_flip w (by decide),
    decPorts_ssm_flip w (by decide), decPorts_sdi_flip w (by decide)]
  rfl

/-- Settles O31: bit 0 is in no field, and it turns the count of ones. -/
theorem wrongParityLeavesTheFieldsAsTheyStand : Obligations.WrongParityLeavesTheFieldsAsTheyStand := fun w s => by
  have hverdict : (decPorts w).parityValid ≠ (decPorts (w ^^^ 1)).parityValid := by
    rw [decPorts_parityValid, decPorts_parityValid, parityValid_flip_parity]
    cases parityValid w <;> decide
  have hfields := (decodedFields_flip_parity w).symm
  exact ⟨_, _, exec_decode w s, exec_decode (w ^^^ 1) s, hverdict, congrArg EncIn.label hfields,
    congrArg EncIn.data hfields, congrArg EncIn.ssm hfields, congrArg EncIn.sdi hfields⟩

/-- The fields and the parity bit that DECODE returns have together as many ones as the word (R97). -/
theorem popcount_decPorts (w : ArincWord) :
    popcount (decPorts w).label + popcount (decPorts w).data + popcount (decPorts w).ssm + popcount (decPorts w).sdi
      + popcount (decPorts w).parity = popcount w := by
  rw [decPorts_label, decPorts_data, decPorts_ssm, decPorts_sdi, decPorts_parity, popcount_zeroExtend _ (by decide),
    popcount_zeroExtend _ (by decide), popcount_zeroExtend _ (by decide), popcount_zeroExtend _ (by decide),
    popcount_zeroExtend _ (by decide), popcount_rev8, popcount_word, popcount_wordBody]

/-- Settles O38: reversal and zero extension keep the count of every field. -/
theorem reversalDoesNotMatterToParity : Obligations.ReversalDoesNotMatterToParity := by
  refine ⟨popcount_rev8, fun w s => ⟨_, exec_decode w s, ?_⟩⟩
  rw [popcount_decPorts]
  exact (decPorts_parityValid_eq_one_iff w).trans (parityValid_iff_odd w)

end Sys2Proof.Machine
end

section
/-! ENCODE and DECODE as inverse functions between legal requests and valid words (42_codec_laws.md R91 to R93). -/

namespace Sys2Proof.Machine

/-- A valid word holds the parity bit of its body, so ENCODE of its fields builds it again (R93). -/
theorem encodeWord_decodedFields {w : ArincWord} (h : ValidWord w) : encodeWord (decodedFields w) = w := by
  have hparity : wordParity w = parityBit (wordBody w) := (wordParity_eq_parityBit_iff w).2 h
  conv_rhs => rw [word_eq_append w, hparity]
  rw [encodeWord, bodyOf_decodedFields]

/-- Legal operands come back from their word (R85, R93). -/
theorem decodedFields_encodeWord {inp : EncIn} (h : Legal Config.labelMax inp) :
    decodedFields (encodeWord inp) = inp := by
  rw [decodedFields, decPorts_encodeWord h]

theorem decPorts_parityValid_eq_zero_iff (w : ArincWord) :
    (decPorts w).parityValid = 0 ↔ parityValid w = false := by
  rw [decPorts_parityValid]
  cases parityValid w <;> decide

/-- Settles O33: the word or its twin with the other parity bit is valid, and both have the same fields. -/
theorem reencodingRepairsOnlyTheParityBit : Obligations.ReencodingRepairsOnlyTheParityBit := fun w s => by
  refine ⟨_, _, exec_decode w s, exec_encode_legal _ (legal_decodedFields w Config.labelMax), rfl, fun h => ?_, fun h => ?_⟩
  · have hvalid : parityValid w = true := (decPorts_parityValid_eq_one_iff w).1 h
    exact encodeWord_decodedFields ((parityValid_iff_odd w).1 hvalid)
  · have hinvalid : parityValid w = false := (decPorts_parityValid_eq_zero_iff w).1 h
    have htwin : parityValid (w ^^^ 1) = true := by rw [parityValid_flip_parity, hinvalid, Bool.not_false]
    calc encodeWord (decodedFields w)
        = encodeWord (decodedFields (w ^^^ 1)) := by rw [decodedFields_flip_parity]
      _ = w ^^^ 1 := encodeWord_decodedFields ((parityValid_iff_odd _).1 htwin)

/-- Settles O37: on legal operands ENCODE is undone by reading the fields, and on valid words it undoes that. -/
theorem encodeIsABijectionOntoTheValidWords : Obligations.EncodeIsABijectionOntoTheValidWords := by
  refine ⟨fun a b w ha hb => ?_, fun w => ⟨fun hw => ⟨decodedFields w, ?_⟩, ?_⟩, fun inp => ⟨fun h => ?_, ?_⟩⟩
  · obtain ⟨halegal, haword⟩ := encodeOp_eq_ok_iff.1 ha
    obtain ⟨hblegal, hbword⟩ := encodeOp_eq_ok_iff.1 hb
    rw [← decodedFields_encodeWord halegal, haword, ← hbword, decodedFields_encodeWord hblegal]
  · exact encodeOp_eq_ok_iff.2 ⟨legal_decodedFields w _, encodeWord_decodedFields hw⟩
  · rintro ⟨inp, hinp⟩
    obtain ⟨-, rfl⟩ := encodeOp_eq_ok_iff.1 hinp
    exact popcount_encodeWord_odd inp
  · exact ⟨_, encodeOp_eq_ok_iff.2 ⟨h, rfl⟩⟩
  · rintro ⟨w, hw⟩
    exact (encodeOp_eq_ok_iff.1 hw).1

/-- A body followed by its parity bit, which makes it a valid word (R58, R92). -/
def withParity (b : Body) : ArincWord := b ++ parityBit b

theorem wordBody_withParity (b : Body) : wordBody (withParity b) = b := BitVec.extractLsb'_append_eq_left

theorem wordParity_withParity (b : Body) : wordParity (withParity b) = parityBit b := BitVec.extractLsb'_append_eq_right

theorem validWord_withParity (b : Body) : ValidWord (withParity b) := by
  rw [ValidWord, ← wordParity_eq_parityBit_iff, wordBody_withParity, wordParity_withParity]

theorem withParity_wordBody {w : ArincWord} (h : ValidWord w) : withParity (wordBody w) = w := by
  rw [withParity, ← (wordParity_eq_parityBit_iff w).2 h]
  exact (word_eq_append w).symm

/-- A valid word is determined by its body, which is free (R92). -/
def validWordEquivBody : { w : ArincWord // ValidWord w } ≃ Body where
  toFun w := wordBody w
  invFun b := ⟨withParity b, validWord_withParity b⟩
  left_inv w := Subtype.ext (withParity_wordBody w.2)
  right_inv b := wordBody_withParity b

/-- Settles O36: there are as many valid words as bodies of 31 bits, and flipping the parity bit turns the verdict. -/
theorem exactlyHalfOfTheWordsAreValid : Obligations.ExactlyHalfOfTheWordsAreValid := by
  refine ⟨?_, fun w => ?_, parityValid_iff_odd⟩
  · calc Nat.card { w : ArincWord // ValidWord w }
        = Nat.card (Fin (2 ^ 31)) := Nat.card_congr (validWordEquivBody.trans BitVec.equivFin.toEquiv)
      _ = 2 ^ 31 := Nat.card_fin _
  · have hvalid : ∀ v : ArincWord, ValidWord v ↔ parityValid v = true := fun v => (parityValid_iff_odd v).symm
    rw [hvalid, hvalid, parityValid_flip_parity]
    cases parityValid w <;> decide

/-- The parity bit as a number, which R31 writes as one more than the count, modulo 2. -/
theorem parityBit_toNat (b : Body) : (parityBit b).toNat = (1 + popcount b) % 2 := by
  rcases Nat.mod_two_eq_zero_or_one (popcount b) with h | h
  · rw [(parityBit_eq_one_iff b).2 h, Nat.add_mod, h]
    rfl
  · rw [(parityBit_eq_zero_iff b).2 h, Nat.add_mod, h]
    rfl

/-- Settles O11: the word is twice the body, plus the parity bit. -/
theorem legalEncodeWordValue : Obligations.LegalEncodeWordValue := fun l d m i s h => by
  refine ⟨_, exec_encode_legal s h, ?_⟩
  show (encodeWord ⟨l, d, m, i⟩).toNat = (labelRev l).toNat * 16777216 + d.toNat * 32 + m.toNat * 8 + i.toNat * 2
    + (1 + popcount (wordBody (encodeWord ⟨l, d, m, i⟩))) % 2
  have hbody : (bodyOf ⟨l, d, m, i⟩).toNat = (labelRev l).toNat * 2 ^ 23 + d.toNat * 16 + m.toNat * 4 + i.toNat :=
    bodyOf_toNat_of_legal h
  rw [wordBody_encodeWord, ← parityBit_toNat, encodeWord_toNat]
  omega

end Sys2Proof.Machine
end

section
/-! The traces (40_encoder.md R60, 41_decoder.md R79). -/

namespace Sys2Proof.Machine

section EncodeTrace

variable {lm : LabelMax} {inp : EncIn}

theorem encTrace_of_legal (h : Legal lm inp) : encTrace lm inp = some
    ⟨labelBin inp.label, labelRev inp.label, bodyOf inp, popcount (bodyOf inp), parityBit (bodyOf inp)⟩ := by
  simp only [encTrace, (offender_eq_none_iff _).2 ((legal_iff_errMask lm inp).1 h)]

/-- No construction step is performed for an operand out of range (R106). -/
theorem encTrace_of_not_legal (h : ¬ Legal lm inp) : encTrace lm inp = none := by
  obtain ⟨f, hf, -⟩ := encodeOp_of_ne_zero (mt (legal_iff_errMask lm inp).2 h)
  simp only [encTrace, hf]

end EncodeTrace

/-- Settles O40: the trace and the word are there for the same requests, and both are made of the body and its parity bit. -/
theorem tracesAgreeWithTheResults : Obligations.TracesAgreeWithTheResults := by
  refine ⟨fun lm inp => ?_, fun lm inp tr htr => ?_, fun w => ⟨rfl, rfl, parityBit_eq_one_iff (wordBody w), rfl⟩⟩
  · by_cases h : Legal lm inp
    · rw [encTrace_of_legal h, encodeOp_eq_ok_iff.2 ⟨h, rfl⟩]
      rfl
    · obtain ⟨f, -, hf⟩ := encodeOp_of_ne_zero (mt (legal_iff_errMask lm inp).2 h)
      rw [encTrace_of_not_legal h, hf]
      rfl
  · by_cases h : Legal lm inp
    · rw [encTrace_of_legal h, Option.some.injEq] at htr
      subst htr
      exact ⟨rfl, rfl, bodyOf_label inp, rfl, parityBit_eq_one_iff (bodyOf inp)⟩
    · rw [encTrace_of_not_legal h] at htr
      cases htr

end Sys2Proof.Machine
end

section
/-! The source's string algorithms (00_scope.md R8, 90_conflicts.md C5): the digits of a number are the bits of its vector. -/

namespace Sys2Proof.Machine

section Digits

/-- Digits depend only on the bits rendered. -/
theorem render_congr {n u v : Nat} (h : ∀ k, k < n → u.testBit k = v.testBit k) : render n u = render n v := by
  induction n with
  | zero => rfl
  | succ n ih => rw [render, render, h n n.lt_succ_self, ih fun k hk => h k (hk.trans n.lt_succ_self)]

/-- The first digits are those of the number moved down by the others. -/
theorem render_add (a b v : Nat) : render (a + b) v = render a (v >>> b) ++ render b v := by
  induction a with
  | zero => rw [Nat.zero_add]; rfl
  | succ a ih => rw [Nat.succ_add, render, render, ih, Nat.testBit_shiftRight, Nat.add_comm, List.cons_append]

/-- Digit k from the left is bit n - 1 - k. -/
theorem getElem_render (n v k : Nat) (hk : k < (render n v).length) : (render n v)[k] = v.testBit (n - 1 - k) := by
  induction n generalizing k with
  | zero => exact absurd hk k.not_lt_zero
  | succ n ih =>
    cases k with
    | zero => rfl
    | succ k =>
      have hpos : n + 1 - 1 - (k + 1) = n - 1 - k := by omega
      rw [hpos, ← ih k (Nat.lt_of_succ_lt_succ hk)]
      rfl

/-- The string of a concatenation of vectors is the concatenation of their strings. -/
theorem render_append {n m : Nat} (x : BitVec n) (y : BitVec m) :
    render (n + m) (x ++ y).toNat = render n x.toNat ++ render m y.toNat := by
  rw [render_add]
  congr 1
  · refine render_congr fun k _ => ?_
    rw [Nat.testBit_shiftRight, BitVec.testBit_toNat, BitVec.testBit_toNat, BitVec.getLsbD_append,
      if_neg (Nat.not_lt.2 (Nat.le_add_right m k)), Nat.add_sub_cancel_left]
  · refine render_congr fun k hk => ?_
    rw [BitVec.testBit_toNat, BitVec.testBit_toNat, BitVec.getLsbD_append, if_pos hk]

/-- The string of the low bits of an operand (R38). -/
theorem render_extractLsb' {w : Nat} (x : BitVec w) (c n : Nat) :
    render n (x.extractLsb' c n).toNat = render n (x.toNat >>> c) :=
  render_congr fun k hk => by
    rw [BitVec.testBit_toNat, Nat.testBit_shiftRight, BitVec.testBit_toNat, BitVec.getLsbD_extractLsb', decide_eq_true hk,
      Bool.true_and]

/-- String positions a to a + n - 1 of a vector's digits are the bits from c up, where c digits follow them (41_decoder.md R71). -/
theorem slice_render {w : Nat} (x : BitVec w) {a n c : Nat} (hw : w = a + (n + c)) :
    slice (render w x.toNat) a n = render n (x.extractLsb' c n).toNat := by
  subst hw
  rw [slice, render_add, List.drop_left' (length_render a _), render_add, List.take_left' (length_render n _),
    render_extractLsb']

/-- Reversing the string of a byte reverses the byte (R7, R32). -/
theorem reverse_render (v : BitVec 8) : (render 8 v.toNat).reverse = render 8 (rev8 v).toNat := by
  apply List.ext_getElem
  · rw [List.length_reverse, length_render, length_render]
  · intro k hk _
    rw [List.length_reverse, length_render] at hk
    have hlow : 8 - 1 - k < 8 := by omega
    rw [List.getElem_reverse, getElem_render, getElem_render, length_render, BitVec.testBit_toNat, BitVec.testBit_toNat,
      getLsbD_rev8, decide_eq_true hlow, Bool.true_and]

/-- The digits 1 of a vector are its ones. -/
theorem onesIn_render {w : Nat} (x : BitVec w) : onesIn (render w x.toNat) = popcount x := by
  have hbelow : ∀ n, onesIn (render n x.toNat) = onesBelow x n := fun n => by
    induction n with
    | zero => rfl
    | succ n ih =>
      rw [onesBelow_succ, ← ih, render, BitVec.testBit_toNat]
      cases x.getLsbD n
      · exact List.countP_cons_of_neg Bool.false_ne_true
      · exact List.countP_cons_of_pos rfl
  exact hbelow w

/-- The parity digit is the parity bit (R57). -/
theorem parityDigit_render (b : Body) : [parityDigit (render 31 b.toNat)] = render 1 (parityBit b).toNat := by
  rw [parityDigit, onesIn_render]
  rcases Nat.mod_two_eq_zero_or_one (popcount b) with h | h
  · rw [(parityBit_eq_one_iff b).2 h, h]
    rfl
  · rw [(parityBit_eq_zero_iff b).2 h, h]
    rfl

/-- Reading back all digits of a vector gives its value. -/
theorem parse_render_toNat {w : Nat} (x : BitVec w) : parse (render w x.toNat) = x.toNat :=
  (parse_render w x.toNat).trans (Nat.mod_eq_of_lt x.isLt)

theorem render_toNat_inj {w : Nat} {x y : BitVec w} : render w x.toNat = render w y.toNat ↔ x = y := by
  constructor
  · intro h
    rw [← BitVec.toNat_inj, ← parse_render_toNat x, h, parse_render_toNat]
  · rintro rfl
    rfl

theorem parse_append_digit (digits : List Bool) (d : Bool) : parse (digits ++ [d]) = 2 * parse digits + d.toNat :=
  List.foldl_append

/-- A string of n digits reads as a number below 2^n. -/
theorem parse_lt (digits : List Bool) : parse digits < 2 ^ digits.length := by
  induction digits using List.reverseRecOn with
  | nil => exact Nat.one_pos
  | append_singleton digits d ih =>
    have hd := Bool.toNat_le d
    rw [parse_append_digit, List.length_append, List.length_singleton, Nat.pow_succ]
    omega

end Digits

section Encode

theorem inRange_eq_true_iff (v : Int) (max : Nat) : inRange v max = true ↔ 0 ≤ v ∧ v ≤ (max : Int) := decide_eq_true_iff

variable {lm : LabelMax} {l d m i : Int}

theorem sourceEncode_of_bad_label (hl : inRange l lm.value = false) : sourceEncode lm l d m i = .error .label := by
  simp only [sourceEncode, hl, Bool.not_false, if_true]

theorem sourceEncode_of_bad_data (hl : inRange l lm.value = true) (hd : inRange d Config.dataMax = false) :
    sourceEncode lm l d m i = .error .data := by
  simp [sourceEncode, hl, hd]

theorem sourceEncode_of_bad_ssm (hl : inRange l lm.value = true) (hd : inRange d Config.dataMax = true)
    (hm : inRange m Config.ssmMax = false) : sourceEncode lm l d m i = .error .ssm := by
  simp [sourceEncode, hl, hd, hm]

theorem sourceEncode_of_bad_sdi (hl : inRange l lm.value = true) (hd : inRange d Config.dataMax = true)
    (hm : inRange m Config.ssmMax = true) (hi : inRange i Config.sdiMax = false) :
    sourceEncode lm l d m i = .error .sdi := by
  simp [sourceEncode, hl, hd, hm, hi]

/-- The source's body: the four fields as strings, the label's reversed (R56). -/
def sourceBody (l d m i : Int) : List Bool :=
  (render 8 l.toNat).reverse ++ render 19 d.toNat ++ render 2 m.toNat ++ render 2 i.toNat

theorem sourceEncode_of_inRange (hl : inRange l lm.value = true) (hd : inRange d Config.dataMax = true)
    (hm : inRange m Config.ssmMax = true) (hi : inRange i Config.sdiMax = true) :
    sourceEncode lm l d m i = .ok (parse (sourceBody l d m i ++ [parityDigit (sourceBody l d m i)])) := by
  simp [sourceEncode, sourceBody, hl, hd, hm, hi]

theorem length_sourceBody (l d m i : Int) : (sourceBody l d m i).length = 31 := by
  simp only [sourceBody, List.length_append, List.length_reverse, length_render]

end Encode

/-- Settles O43: the checks are made in the order LABEL, DATA, SSM, SDI, and a string of 32 digits reads as a number below
2^32. -/
theorem signedOperandsOutOfRangeAreRejected : Obligations.SignedOperandsOutOfRangeAreRejected := fun lm l d m i => by
  have hin : ∀ {v : Int} {max : Nat}, 0 ≤ v → v ≤ (max : Int) → inRange v max = true :=
    fun h0 h1 => (inRange_eq_true_iff _ _).2 ⟨h0, h1⟩
  have hout : ∀ {v : Int} {max : Nat}, v < 0 ∨ (max : Int) < v → inRange v max = false :=
    (inRange_eq_false_iff _ _).2
  refine ⟨fun hl => sourceEncode_of_bad_label (hout hl),
    fun l0 l1 hd => sourceEncode_of_bad_data (hin l0 l1) (hout hd),
    fun l0 l1 d0 d1 hm => sourceEncode_of_bad_ssm (hin l0 l1) (hin d0 d1) (hout hm),
    fun l0 l1 d0 d1 m0 m1 hi => sourceEncode_of_bad_sdi (hin l0 l1) (hin d0 d1) (hin m0 m1) (hout hi),
    fun l0 l1 d0 d1 m0 m1 i0 i1 =>
      ⟨_, ?_, sourceEncode_of_inRange (hin l0 l1) (hin d0 d1) (hin m0 m1) (hin i0 i1)⟩⟩
  have hlt := parse_lt (sourceBody l d m i ++ [parityDigit (sourceBody l d m i)])
  rwa [List.length_append, length_sourceBody] at hlt

section Operands

variable {w : Nat} (x : BitVec w) (max : Nat)

/-- The value of a port is never negative (R7). -/
theorem inRange_toNat_eq_true_iff : inRange (x.toNat : Int) max = true ↔ x.toNat ≤ max := by
  rw [inRange_eq_true_iff, Int.ofNat_le, and_iff_right (Int.natCast_nonneg _)]

theorem inRange_toNat_eq_false_iff : inRange (x.toNat : Int) max = false ↔ max < x.toNat := by
  rw [← Bool.not_eq_true, inRange_toNat_eq_true_iff, Nat.not_le]

end Operands

/-- The string of the body is that of the vector (R56). -/
theorem sourceBody_toNat (inp : EncIn) :
    sourceBody inp.label.toNat inp.data.toNat inp.ssm.toNat inp.sdi.toNat = render 31 (bodyOf inp).toNat := by
  have hlow : ∀ {w : Nat} (x : BitVec w) (n : Nat), render n (x.toNat : Int).toNat = render n (x.extractLsb' 0 n).toNat :=
    fun x n => (render_extractLsb' x 0 n).symm
  have happend : render 31 (bodyOf inp).toNat = render (8 + 19 + 2 + 2) (labelRev inp.label ++ inp.data.extractLsb' 0 19
      ++ inp.ssm.extractLsb' 0 2 ++ inp.sdi.extractLsb' 0 2).toNat := rfl
  rw [happend, render_append, render_append, render_append, sourceBody, hlow, hlow, hlow, hlow, reverse_render]
  rfl

/-- With every operand in range the source reads back the word's own 32 digits (R58). -/
theorem sourceEncode_of_legal {lm : LabelMax} {inp : EncIn} (h : Legal lm inp) :
    sourceEncode lm inp.label.toNat inp.data.toNat inp.ssm.toNat inp.sdi.toNat = .ok (encodeWord inp).toNat := by
  obtain ⟨hl, hd, hm, hi⟩ := h
  have happend : render 31 (bodyOf inp).toNat ++ render 1 (parityBit (bodyOf inp)).toNat
      = render 32 (encodeWord inp).toNat := (render_append _ _).symm
  rw [sourceEncode_of_inRange ((inRange_toNat_eq_true_iff _ _).2 hl) ((inRange_toNat_eq_true_iff _ _).2 hd)
    ((inRange_toNat_eq_true_iff _ _).2 hm) ((inRange_toNat_eq_true_iff _ _).2 hi), sourceBody_toNat, parityDigit_render,
    happend, parse_render_toNat]

/-- With an operand out of range both forms name the first (R107). -/
theorem sourceEncode_of_invalidArgument {lm : LabelMax} {inp : EncIn} {f : ErrField}
    (h : encodeOp lm inp = .invalidArgument f) :
    sourceEncode lm inp.label.toNat inp.data.toNat inp.ssm.toNat inp.sdi.toNat = .error f := by
  obtain ⟨hlabel, hdata, hssm, hsdi⟩ := encodeOp_eq_invalidArgument_iff_first (lm := lm) (inp := inp)
  cases f with
  | label => exact sourceEncode_of_bad_label ((inRange_toNat_eq_false_iff _ _).2 (hlabel.1 h))
  | data =>
    obtain ⟨hl, hd⟩ := hdata.1 h
    exact sourceEncode_of_bad_data ((inRange_toNat_eq_true_iff _ _).2 hl) ((inRange_toNat_eq_false_iff _ _).2 hd)
  | ssm =>
    obtain ⟨hl, hd, hm⟩ := hssm.1 h
    exact sourceEncode_of_bad_ssm ((inRange_toNat_eq_true_iff _ _).2 hl) ((inRange_toNat_eq_true_iff _ _).2 hd)
      ((inRange_toNat_eq_false_iff _ _).2 hm)
  | sdi =>
    obtain ⟨hl, hd, hm, hi⟩ := hsdi.1 h
    exact sourceEncode_of_bad_sdi ((inRange_toNat_eq_true_iff _ _).2 hl) ((inRange_toNat_eq_true_iff _ _).2 hd)
      ((inRange_toNat_eq_true_iff _ _).2 hm) ((inRange_toNat_eq_false_iff _ _).2 hi)
  | word => exact absurd h encodeOp_ne_invalidArgument_word

/-- Settles O41: the strings are those of the vectors, and the checks are made in the same order. -/
theorem stringFormOfEncodeIsTheBitVectorForm : Obligations.StringFormOfEncodeIsTheBitVectorForm := fun lm l d m i => by
  cases hop : encodeOp lm ⟨l, d, m, i⟩ with
  | ok w =>
    obtain ⟨hlegal, rfl⟩ := encodeOp_eq_ok_iff.1 hop
    exact sourceEncode_of_legal hlegal
  | invalidArgument f => exact sourceEncode_of_invalidArgument hop

/-- Settles O42: each slice of the string is the string of a slice of the word. -/
theorem stringFormOfDecodeIsTheBitVectorForm : Obligations.StringFormOfDecodeIsTheBitVectorForm := fun w => by
  have hrange : inRange (w.toNat : Int) (2 ^ 32 - 1) = true :=
    (inRange_toNat_eq_true_iff w _).2 (Nat.le_sub_one_of_lt w.isLt)
  have hlabel : slice (render 32 w.toNat) 0 8 = render 8 (wordLabelRev w).toNat := slice_render w (c := 24) rfl
  have hdata : slice (render 32 w.toNat) 8 19 = render 19 (wordData w).toNat := slice_render w (c := 5) rfl
  have hssm : slice (render 32 w.toNat) 27 2 = render 2 (wordSsm w).toNat := slice_render w (c := 3) rfl
  have hsdi : slice (render 32 w.toNat) 29 2 = render 2 (wordSdi w).toNat := slice_render w (c := 1) rfl
  have hparity : slice (render 32 w.toNat) 31 1 = render 1 (wordParity w).toNat := slice_render w (c := 0) rfl
  have hbody : slice (render 32 w.toNat) 0 31 = render 31 (wordBody w).toNat := slice_render w (c := 1) rfl
  have hvalid : (render 1 (wordParity w).toNat == render 1 (parityBit (wordBody w)).toNat) = parityValid w := by
    rw [Bool.eq_iff_iff, beq_iff_eq, render_toNat_inj, parityValid, beq_iff_eq]
  simp only [sourceDecode, hrange, Bool.not_true, Bool.false_eq_true, if_false, Int.toNat_natCast, hlabel, hdata, hssm,
    hsdi, hparity, hbody, reverse_render, parityDigit_render, parse_render_toNat, BitVec.ofNat_toNat, hvalid, decodeOp]

end Sys2Proof.Machine
end
